-- ==== Sys2Proof/Word.lean ====
section
/-!
DEFINITION. The word of the serialToI2C command parser: the byte (spec/00_scope.md R7), and the two
bytes of the frame terminator (R5, parameter `TERM`).
-/

namespace Sys2Proof

/-- A byte, "an unsigned integer 0..255" (R7). Every field on the wire and every numeric `cfg` field
is one byte (R5 `CFG_WIDTH`, R31, R60). -/
abbrev Byte := BitVec 8

/-- `CR` = 13 (R7). -/
abbrev CR : Byte := 13#8

/-- `LF` = 10 (R7). -/
abbrev LF : Byte := 10#8

/-- The frame terminator `[13, 10]` (R5 `TERM`, R50). -/
abbrev terminator : List Byte := [CR, LF]

end Sys2Proof
end

