-- ==== Sys2Proof/Syntax.lean ====
section
/-!
DEFINITION. The command set: one constructor per row of spec/opcode_table.json (30_encoding.md R51).
The payloads are those of the Command value (41_decoder.md R85).
-/

namespace Sys2Proof

/-- A frame body as the opcode table names it. The thirteen commands are R85's variants. The four
rows that are not commands (106 to 109) carry nothing: as the first byte of a request they raise
`NoCommand` and "the rest of the body is not examined" (R63, R83). -/
inductive Instr where
  /-- WRITE (100): send `data` to the slave at `addr` (R90). -/
  | write (addr : Byte) (data : List Byte)
  /-- READ (101): request `count` bytes from `addr` (R91). -/
  | read (addr count : Byte)
  /-- WRITEREAD (102): write `wdata`, wait, request `rcount` bytes (R92). -/
  | writeRead (addr : Byte) (wdata : List Byte) (rcount : Byte)
  /-- CHECKDEVICE (103): probe `addr` (R100). -/
  | checkDevice (addr : Byte)
  /-- DEVICELIST (104): probe every address of the scan range (R101). -/
  | deviceList
  /-- RESETDEVICES (105): pulse the reset pin low (R102). -/
  | resetDevices
  /-- ERROR (106) as the first byte of a request (R63, R126). -/
  | error
  /-- MESSAGEERROR (107) as the first byte of a request (R63, R127). -/
  | messageError
  /-- NOCOMMAND (108) as the first byte of a request (R63, R128). -/
  | noCommand
  /-- INFO (109) as the first byte of a request (R63, R129). -/
  | info
  /-- RESETI2CFREQ (110) (R111). -/
  | resetI2CFreq
  /-- SET400KHZ (111) (R112). -/
  | set400kHz
  /-- SETWRITEREADDELAY (112) (R113). -/
  | setWriteReadDelay (p : Byte)
  /-- SETRESETPIN (113) (R114). -/
  | setResetPin (p : Byte)
  /-- SETRESETTIME (114) (R115). -/
  | setResetTime (p : Byte)
  /-- SETRESETSETTLETIME (115) (R116). -/
  | setResetSettleTime (p : Byte)
  /-- SETINPUTBUFFERSIZE (116) (R117). -/
  | setInputBufferSize (p : Byte)
deriving DecidableEq, Repr

end Sys2Proof
end

