-- ==== Sys2Proof/WellFormed.lean ====
section
/-!
DEFINITION. Which instructions have an encoding: the count fields of WRITE and WRITEREAD are bytes, so
their data is 0..255 bytes long (41_decoder.md R85; 30_encoding.md R56, R57). Every other operand is a
byte and every byte is legal (R38, R110).
-/

namespace Sys2Proof

/-- The operands fit their fields (R85). -/
def Instr.wf : Instr → Bool
  | .write _ data => decide (data.length ≤ 255)
  | .writeRead _ wdata _ => decide (wdata.length ≤ 255)
  | .read _ _ => true
  | .checkDevice _ => true
  | .deviceList => true
  | .resetDevices => true
  | .error => true
  | .messageError => true
  | .noCommand => true
  | .info => true
  | .resetI2CFreq => true
  | .set400kHz => true
  | .setWriteReadDelay _ => true
  | .setResetPin _ => true
  | .setResetTime _ => true
  | .setResetSettleTime _ => true
  | .setInputBufferSize _ => true

/-- The instruction has an encoding. -/
abbrev Instr.WellFormed (i : Instr) : Prop := i.wf = true

end Sys2Proof
end

