-- ==== Sys2Proof/Decode.lean ====
section
/-!
DEFINITION. The Command Decoder (41_decoder.md R80 to R85), total on any byte sequence; after it the
encoder of requests (30_encoding.md R52 to R58, R64), written from the same format tables; and the
reading of an opcode-table word as a frame body.
-/

namespace Sys2Proof

/-- What the decoder answers: a command, or one of its two exceptions (R80). -/
inductive Decoded where
  /-- The body is this row of the opcode table. -/
  | instr (i : Instr)
  /-- `MessageError` (R84). -/
  | messageError
  /-- `NoCommand` (R83). -/
  | noCommand
deriving DecidableEq, Repr

/-- `body[i]` (R7, R60). The decoder's length tests come first, so the value for an offset at or
beyond the length is never used ("never a panic or out-of-bounds read", R80). -/
def byteAt (body : List Byte) (i : Nat) : Byte := body.getD i 0#8

/-- `body[i : i + n - 1]`, the `n` bytes from offset `i` (R7). -/
def slice (body : List Byte) (i n : Nat) : List Byte := (body.drop i).take n

/-- The length test of the exact formats N, A, AC and P (R82, decision D6). -/
def exactly (n : Nat) (body : List Byte) (i : Instr) : Decoded :=
  if body.length = n then .instr i else .messageError

/-- Format ACD: opcode, addr, count, data[count]; surplus bytes are ignored (R56, R81). -/
def decodeACD (body : List Byte) : Decoded :=
  if body.length < 3 then .messageError
  else if body.length - 3 < (byteAt body 2).toNat then .messageError
  else .instr (.write (byteAt body 1) (slice body 3 (byteAt body 2).toNat))

/-- The READ opcode as the marker of format WR (R62). -/
def marker : Byte := 101#8

/-- Format WR: opcode, addr, wcount, wdata[wcount], marker, rcount; surplus bytes are ignored
(R57, R62, R81). -/
def decodeWR (body : List Byte) : Decoded :=
  if body.length < 5 then .messageError
  else if body.length < 5 + (byteAt body 2).toNat then .messageError
  else if byteAt body (3 + (byteAt body 2).toNat) ≠ marker then .messageError
  else .instr (.writeRead (byteAt body 1) (slice body 3 (byteAt body 2).toNat)
    (byteAt body (4 + (byteAt body 2).toNat)))

/-- The decode function of R81, arm by arm. It yields the thirteen commands and no other row. -/
def decodeCommand (body : List Byte) : Decoded :=
  if body.length = 0 then .messageError
  else match (byteAt body 0).toNat with
    | 100 => decodeACD body
    | 101 => exactly 3 body (.read (byteAt body 1) (byteAt body 2))
    | 102 => decodeWR body
    | 103 => exactly 2 body (.checkDevice (byteAt body 1))
    | 104 => exactly 1 body .deviceList
    | 105 => exactly 1 body .resetDevices
    | 110 => exactly 1 body .resetI2CFreq
    | 111 => exactly 1 body .set400kHz
    | 112 => exactly 2 body (.setWriteReadDelay (byteAt body 1))
    | 113 => exactly 2 body (.setResetPin (byteAt body 1))
    | 114 => exactly 2 body (.setResetTime (byteAt body 1))
    | 115 => exactly 2 body (.setResetSettleTime (byteAt body 1))
    | 116 => exactly 2 body (.setInputBufferSize (byteAt body 1))
    | _ => .noCommand

/-- The decoder over all rows of the opcode table: R81's, save that a body whose first byte is 106 to
109, for which R81 answers `NoCommand`, is named by its row. The meaning of those four rows is to
raise `NoCommand` (R63, R83), so the two decoders give the same behaviour.
DESIGN CHOICE, notes/assumptions/8.md. -/
def decode (body : List Byte) : Decoded :=
  if body.length = 0 then .messageError
  else match (byteAt body 0).toNat with
    | 106 => .instr .error
    | 107 => .instr .messageError
    | 108 => .instr .noCommand
    | 109 => .instr .info
    | _ => decodeCommand body

/-- `opcode(cmd)`: the opcode map (R51), which the response encoder echoes (R85, R120). -/
def Instr.opcode : Instr → Byte
  | .write _ _ => 100#8
  | .read _ _ => 101#8
  | .writeRead _ _ _ => 102#8
  | .checkDevice _ => 103#8
  | .deviceList => 104#8
  | .resetDevices => 105#8
  | .error => 106#8
  | .messageError => 107#8
  | .noCommand => 108#8
  | .info => 109#8
  | .resetI2CFreq => 110#8
  | .set400kHz => 111#8
  | .setWriteReadDelay _ => 112#8
  | .setResetPin _ => 113#8
  | .setResetTime _ => 114#8
  | .setResetSettleTime _ => 115#8
  | .setInputBufferSize _ => 116#8

/-- Whether the row is one of the thirteen commands a client may send (R51, R85). -/
def Instr.isCommand : Instr → Bool
  | .error => false
  | .messageError => false
  | .noCommand => false
  | .info => false
  | .write _ _ => true
  | .read _ _ => true
  | .writeRead _ _ _ => true
  | .checkDevice _ => true
  | .deviceList => true
  | .resetDevices => true
  | .resetI2CFreq => true
  | .set400kHz => true
  | .setWriteReadDelay _ => true
  | .setResetPin _ => true
  | .setResetTime _ => true
  | .setResetSettleTime _ => true
  | .setInputBufferSize _ => true

/-- The canonical request body of an instruction: count equal to the number of data bytes, no
trailing bytes (R53 to R58, R64). -/
def encode : Instr → List Byte
  | .write addr data => [100#8, addr, BitVec.ofNat 8 data.length] ++ data
  | .read addr count => [101#8, addr, count]
  | .writeRead addr wdata rcount =>
      [102#8, addr, BitVec.ofNat 8 wdata.length] ++ wdata ++ [101#8, rcount]
  | .checkDevice addr => [103#8, addr]
  | .deviceList => [104#8]
  | .resetDevices => [105#8]
  | .error => [106#8]
  | .messageError => [107#8]
  | .noCommand => [108#8]
  | .info => [109#8]
  | .resetI2CFreq => [110#8]
  | .set400kHz => [111#8]
  | .setWriteReadDelay p => [112#8, p]
  | .setResetPin p => [113#8, p]
  | .setResetTime p => [114#8, p]
  | .setResetSettleTime p => [115#8, p]
  | .setInputBufferSize p => [116#8, p]

/-- The request frame on the wire: the body and the terminator (R50, R64). -/
def encodeFrame (i : Instr) : List Byte := encode i ++ terminator

/-- The bytes of an opcode-table word: the byte of bits 7..0 is the first byte of the frame body. -/
def wordBytes : Nat → Nat → List Byte
  | 0, _ => []
  | n + 1, w => BitVec.ofNat 8 w :: wordBytes n (w / 256)

/-- `body` lengthened with zero bytes to at least `n` bytes. -/
def padTo (n : Nat) (body : List Byte) : List Byte := body ++ List.replicate (n - body.length) 0#8

/-- A frame body of which the table's word may give only the first bytes (the opcode), completed to the
length its format requires: operand bytes that the word does not give are zero, and the marker of a
WRITEREAD, a fixed byte of the encoding and no operand (R57, R62), is 101 where the word does not
reach it. Bytes the word gives are never changed. DESIGN CHOICE, notes/assumptions/10.md. -/
def completeBody (body : List Byte) : List Byte :=
  match (byteAt body 0).toNat with
  | 100 => padTo (3 + (byteAt body 2).toNat) body
  | 101 => padTo 3 body
  | 102 =>
      let upToMarker := padTo (3 + (byteAt body 2).toNat) body
      if body.length ≤ 3 + (byteAt body 2).toNat then upToMarker ++ [marker, 0#8]
      else padTo (5 + (byteAt body 2).toNat) body
  | 103 => padTo 2 body
  | 112 => padTo 2 body
  | 113 => padTo 2 body
  | 114 => padTo 2 body
  | 115 => padTo 2 body
  | 116 => padTo 2 body
  | _ => body

/-- The frame body that an opcode-table word of `nbits` bits stands for. -/
def tableBody (nbits w : Nat) : List Byte := completeBody (wordBytes (nbits / 8) w)

/-- The instruction the decoder reads from an opcode-table word. -/
def decodeTableWord (nbits w : Nat) : Option Instr :=
  match decode (tableBody nbits w) with
  | .instr i => some i
  | .messageError => none
  | .noCommand => none

end Sys2Proof
end

