-- ==== Sys2Proof/Config.lean ====
section
/-!
DEFINITION. What is fixed for one block: the implementation parameters of spec/00_scope.md R5, the
vocabulary of the bus interface (frequency modes R16, status codes R37, answers R35 and R36), and the
values the spec leaves open, which are opaque constants nothing can evaluate.
-/

namespace Sys2Proof

/-- `busFrequencyMode: enum{default, fast400k}` (R16). -/
inductive FreqMode where
  | default
  | fast400k
deriving DecidableEq, Repr, Inhabited

/-- The status code taxonomy of a bus write (R37). -/
inductive BusStatus where
  /-- 0: success -/
  | success
  /-- 1: data too long for transmit buffer -/
  | dataTooLong
  /-- 2: address NACK -/
  | addressNack
  /-- 3: data NACK -/
  | dataNack
  /-- 4: other error -/
  | otherError
deriving DecidableEq, Repr, Inhabited

/-- What the environment answers to a `BusWrite` (R35): `Ok(s)` with `s` in 0..4, or `Fault(st)`
with `st` either `none` or `some(s)` for any byte `s`. -/
inductive WriteAnswer where
  | ok (s : BusStatus)
  | fault (st : Option Byte)
deriving DecidableEq, Repr, Inhabited

/-- What the environment answers to a `BusRead` (R36): `Ok(r)` with `r` a byte sequence, or
`Fault(st)` as for a write. -/
inductive ReadAnswer where
  | ok (r : List Byte)
  | fault (st : Option Byte)
deriving DecidableEq, Repr, Inhabited

namespace Config

/-- `BUF_MAX`: the number of byte cells of the frame buffer (R5, decision D24). -/
def bufMax : Nat := 255

/-- `SCAN_FIRST`: the first address DEVICELIST probes (R5, R43, decision D13). -/
def scanFirst : Nat := 1

/-- `SCAN_LAST`: the last address DEVICELIST probes (R5, R43, decision D13). -/
def scanLast : Nat := 126

/-- `RST_CAP`: the reset value of `cfg.cap` (R5, R15). -/
def rstCap : Byte := 128#8

/-- `RST_FREQ`: the reset value of `cfg.freq` (R5, R16, decision D11). -/
def rstFreq : FreqMode := .default

/-- `RST_WR_DELAY_MS`, OPEN 0..255 (R5, R17, decision D10). DESIGN CHOICE, notes/assumptions/6.md. -/
opaque rstWrDelayMs : Byte

/-- `RST_RESET_PIN`, OPEN 0..255 (R5, R18, decision D10). DESIGN CHOICE, notes/assumptions/6.md. -/
opaque rstResetPin : Byte

/-- `RST_RESET_PULSE_MS`, OPEN 0..255 (R5, R19, decision D10). DESIGN CHOICE, notes/assumptions/6.md. -/
opaque rstResetPulseMs : Byte

/-- `RST_RESET_SETTLE_MS`, OPEN 0..255 (R5, R20, decision D10). DESIGN CHOICE, notes/assumptions/6.md. -/
opaque rstResetSettleMs : Byte

/-- The answer to a bus write for which the state holds no queued answer: a free value, "any of the
5 + 257 answers may follow any call" (R35). DESIGN CHOICE, notes/assumptions/3.md. -/
opaque freeWriteAnswer : Nat → WriteAnswer

/-- The answer to a bus read for which the state holds no queued answer: a free value (R36,
93_implementation_defined.md I10). DESIGN CHOICE, notes/assumptions/3.md. -/
opaque freeReadAnswer : Nat → ReadAnswer

end Config

end Sys2Proof
end

