-- ==== Sys2Proof/Machine/State.lean ====
section
/-!
DEFINITION. The state of the block: the ten elements of 10_state.md R10, each under its own name, and
beside them the model's own fields: what the environment presents to the block (inbound bytes, the
reset input, answers of the bus) and the event trace (00_scope.md R9).
-/

namespace Sys2Proof.Machine

/-- `phase`, the reader phase (R11). -/
inductive Phase where
  /-- `RECV`: the byte is appended to the frame in progress or completes it. -/
  | recv
  /-- `DISCARD`: the byte is dropped; the reader looks for the terminator of the discarded frame. -/
  | discard
deriving DecidableEq, Repr

/-- The level of a pin: 0 low, 1 high (R8, R40). -/
inductive Level where
  | low
  | high
deriving DecidableEq, Repr

/-- The events of the trace (R8, R9); each bus event is paired with the answer the environment gave. -/
inductive Event where
  /-- `Tx(s)`: the bytes of `s` were handed to the byte sink (R8, R34). -/
  | tx (s : List Byte)
  /-- `BusWrite(f, a, d) = answer` (R35). -/
  | busWrite (f : FreqMode) (a : Byte) (d : List Byte) (answer : WriteAnswer)
  /-- `BusRead(f, a, n) = answer` (R36). -/
  | busRead (f : FreqMode) (a : Byte) (n : Byte) (answer : ReadAnswer)
  /-- `Delay(ms)` (R39). -/
  | delay (ms : Byte)
  /-- `PinWrite(p, v)` (R40). -/
  | pinWrite (p : Byte) (v : Level)
  /-- `Overflow` (R67, R135). -/
  | overflow
deriving DecidableEq, Repr

/-- What the outside world presents to one step (R24: the inbound byte and the reset input are
parameters of the step). -/
inductive Input where
  /-- The next byte of `RX` (R34). -/
  | rx (b : Byte)
  /-- The reset input, between two bytes (R155). -/
  | reset
  /-- The next byte of `RX`, and the reset input while the step that accepts it runs: after that step
  has recorded `k` events (R156). -/
  | rxThenReset (b : Byte) (k : Nat)
deriving DecidableEq, Repr

/-- The frame buffer as a list of (offset, byte) cells: offsets strictly rising, no cell equal to what
an unlisted offset reads as. -/
abbrev Memory := List Host.Cell

/-- The Configuration Store (R2, R15 to R20). -/
structure Cfg where
  /-- `cfg.cap`, input buffer capacity (R15). -/
  cap : Byte
  /-- `cfg.freq`, bus frequency mode (R16). -/
  freq : FreqMode
  /-- `cfg.wrDelay`, write-read delay in ms (R17). -/
  wrDelay : Byte
  /-- `cfg.resetPin`, reset pin identifier (R18). -/
  resetPin : Byte
  /-- `cfg.resetPulse`, reset pulse duration in ms (R19). -/
  resetPulse : Byte
  /-- `cfg.resetSettle`, reset settle duration in ms (R20). -/
  resetSettle : Byte
deriving DecidableEq, Repr

/-- The state between two architectural steps. `phase` to `cfg` are the block's ten elements (R10);
the other fields are the model's own (notes/assumptions/1.md to 3.md). -/
structure State where
  /-- `phase` (R11). -/
  phase : Phase
  /-- `buf`, the frame buffer (R12). -/
  buf : Memory
  /-- `len`, number of valid bytes in `buf` (R13). -/
  len : BitVec 8
  /-- `dcr`, "last discarded byte was CR" (R14). -/
  dcr : Bool
  /-- `cfg.*`, the Configuration Store (R15 to R20). -/
  cfg : Cfg
  /-- The inbound stream not yet accepted, and where the reset input falls in it (R24, R25, R34, R156). -/
  inputs : List Input
  /-- The answers the environment will give to the next bus writes, first one next (R25, R35). -/
  writeAnswers : List WriteAnswer
  /-- The answers the environment will give to the next bus reads, first one next (R25, R36). -/
  readAnswers : List ReadAnswer
  /-- How many bus operations were answered by a free value of Config. -/
  freeIndex : Nat
  /-- The event trace so far, oldest event first (R9). -/
  trace : List Event
deriving DecidableEq, Repr

/-- Why the block stops with a fault: never. The spec gives every exception an effect after which the
block goes on ("No error is fatal to the process", R86, R140), so no constructor is needed; no meaning
raises one (safe). -/
inductive Fault where
deriving DecidableEq, Repr

/-- Why an instruction has no meaning. -/
inductive Refusal where
  /-- Raised by exec's arm of an instruction that has no meaning yet (safe); no arm raises it. -/
  | notModelled (mnemonic : String)
deriving DecidableEq, Repr

/-- The Configuration Store right after reset (R15 to R20). -/
def Cfg.reset : Cfg where
  cap := Config.rstCap
  freq := Config.rstFreq
  wrDelay := Config.rstWrDelayMs
  resetPin := Config.rstResetPin
  resetPulse := Config.rstResetPulseMs
  resetSettle := Config.rstResetSettleMs

/-- The machine right after reset (10_state.md section 7, R155), with nothing presented to it yet. -/
def State.reset : State where
  phase := .recv
  buf := []
  len := 0#8
  dcr := false
  cfg := Cfg.reset
  inputs := []
  writeAnswers := []
  readAnswers := []
  freeIndex := 0
  trace := []

end Sys2Proof.Machine
end

