-- ==== Sys2Proof/Machine/Flags.lean ====
section
/-!
DEFINITION. The flag-like values of the block: the numeric status codes (20_memory.md R37) and the
computation of `dcr` (10_state.md R14). The block has no condition codes (R23).
-/

namespace Sys2Proof.Machine

/-- The status code as the byte it is on the wire (R37). -/
def statusByte : BusStatus → Byte
  | .success => 0#8
  | .dataTooLong => 1#8
  | .addressNack => 2#8
  | .dataNack => 3#8
  | .otherError => 4#8

/-- The new value of `dcr` after a dropped byte: `b = 13` (R14, R67, R69). -/
def crFlag (b : Byte) : Bool := b == CR

end Sys2Proof.Machine
end

