-- ==== Sys2Proof/Machine/Response.lean ====
section
/-!
DEFINITION. The Response Encoder (45_response_encoder.md R120 to R128), and the client's procedure that
cuts one response off the TX stream by its length fields (30_encoding.md R61, 70_reset_and_hazards.md R161).
-/

namespace Sys2Proof.Machine

/-- The dispatcher's output, the TransactionResult (R120). -/
inductive Result where
  | statusCode (addr : Byte) (s : BusStatus)
  | readPayload (addr : Byte) (d : List Byte)
  | deviceList (found : List Byte)
  | ack
  | busFault (st : Option Byte)
deriving DecidableEq, Repr

/-- ERROR, `i2c_error` (R51, R126). -/
def opERROR : Byte := 106#8

/-- MESSAGEERROR, `i2c_messageError` (R51, R127). -/
def opMESSAGEERROR : Byte := 107#8

/-- NOCOMMAND, `i2c_noCommand` (R51, R128). -/
def opNOCOMMAND : Byte := 108#8

/-- The length of a byte sequence as a count byte. Every sequence the block counts is at most 255 bytes
long (R120), so nothing is lost. -/
def countByte (d : List Byte) : Byte := BitVec.ofNat 8 d.length

/-- The ERR frame, "opcode only, or opcode + statusCode" (R126). -/
def errorFrame : Option Byte → List Byte
  | none => [opERROR] ++ terminator
  | some s => [opERROR, s] ++ terminator

/-- The MESSAGEERROR frame (R127). -/
def messageErrorFrame : List Byte := [opMESSAGEERROR] ++ terminator

/-- The NOCOMMAND frame (R128). -/
def noCommandFrame : List Byte := [opNOCOMMAND] ++ terminator

/-- `encode(op, res)` (R120 to R126). -/
def encodeResponse (op : Byte) : Result → List Byte
  | .statusCode addr s => [op, addr, statusByte s] ++ terminator
  | .readPayload addr d => [op, addr, countByte d] ++ d ++ terminator
  | .deviceList found => [op, countByte found] ++ found ++ terminator
  | .ack => [op] ++ terminator
  | .busFault st => errorFrame st

/-- Cut `n` bytes and then the terminator off a stream. -/
def takeClosed (n : Nat) (stream : List Byte) : Option (List Byte × List Byte) :=
  if (stream.drop n).take 2 = terminator then some (stream.take (n + 2), stream.drop (n + 2))
  else none

/-- The client's side of the wire: the first response frame of the TX stream and the rest, found by the
opcode and the length fields (R61(b)), the ERROR frame by looking ahead (R161). `none` where the stream
does not begin with a response the block sends. -/
def splitResponse (stream : List Byte) : Option (List Byte × List Byte) :=
  match stream with
  | [] => none
  | op :: rest => match op.toNat with
    | 100 => takeClosed 3 stream
    | 103 => takeClosed 3 stream
    | 101 => takeClosed (3 + (rest.getD 1 0#8).toNat) stream
    | 102 => takeClosed (3 + (rest.getD 1 0#8).toNat) stream
    | 104 => takeClosed (2 + (rest.getD 0 0#8).toNat) stream
    | 106 =>
        if rest.take 2 = terminator then takeClosed 1 stream
        else takeClosed 2 stream
    | 105 => takeClosed 1 stream
    | 107 => takeClosed 1 stream
    | 108 => takeClosed 1 stream
    | 110 => takeClosed 1 stream
    | 111 => takeClosed 1 stream
    | 112 => takeClosed 1 stream
    | 113 => takeClosed 1 stream
    | 114 => takeClosed 1 stream
    | 115 => takeClosed 1 stream
    | 116 => takeClosed 1 stream
    | _ => none

end Sys2Proof.Machine
end

