-- ==== Sys2Proof/Machine/Ops.lean ====
section
/-!
DEFINITION. The named operations over the state: the frame buffer's cells, the environment's answers,
the primitives of 00_scope.md R8 (each records its event), `reader_reset` (R73), taking an exception
(60_exceptions.md R135 to R138, R143) and the return from it (R145), and the reset event (R155, R156).
-/

namespace Sys2Proof.Machine

/-! ### The frame buffer (R12) -/

/-- What an unlisted cell reads as. No rule reads a cell at or beyond `len` (R12), so the value is never
observed. DESIGN CHOICE, notes/assumptions/7.md. -/
def Memory.unlisted : Byte := 0#8

/-- The byte in cell `n`. -/
def Memory.read : Memory → Nat → Byte
  | [], _ => Memory.unlisted
  | (k, v) :: m, n => if k = n then v else Memory.read m n

/-- Store `v` in cell `n`, keeping the canonical form. -/
def Memory.write : Memory → Nat → Byte → Memory
  | [], n, v => if v = Memory.unlisted then [] else [(n, v)]
  | (k, w) :: m, n, v =>
      if n < k then (if v = Memory.unlisted then (k, w) :: m else (n, v) :: (k, w) :: m)
      else if n = k then (if v = Memory.unlisted then m else (n, v) :: m)
      else (k, w) :: Memory.write m n v

/-- The canonical form from offset `lo` on: offsets strictly rising and below `BUF_MAX`, no listed cell
equal to what an unlisted one reads as. -/
def Memory.wfFrom : Nat → Memory → Bool
  | _, [] => true
  | lo, (k, v) :: m =>
      decide (lo ≤ k) && decide (k < Config.bufMax) && v != Memory.unlisted && Memory.wfFrom (k + 1) m

/-- The canonical form of the frame buffer. -/
def Memory.wf (m : Memory) : Bool := Memory.wfFrom 0 m

/-- Store the bytes of `bs` in consecutive cells from `n` on. -/
def Memory.writeAll (m : Memory) (n : Nat) : List Byte → Memory
  | [] => m
  | b :: bs => Memory.writeAll (Memory.write m n b) (n + 1) bs

/-- `buf[0 : n-1]`, the first `n` cells (R7, R66). -/
def Memory.firstBytes (m : Memory) (n : Nat) : List Byte := (List.range n).map (Memory.read m)

/-! ### The event trace and the environment's answers -/

/-- Record an event at the end of the trace (R8, R9). -/
def record (e : Event) (s : State) : State := { s with trace := s.trace ++ [e] }

/-- The answer the environment gives to the next bus write: the first queued one, else a free value. -/
def nextWriteAnswer (s : State) : WriteAnswer :=
  match s.writeAnswers with
  | a :: _ => a
  | [] => Config.freeWriteAnswer s.freeIndex

/-- The state after that answer is used up. -/
def popWriteAnswer (s : State) : State :=
  match s.writeAnswers with
  | _ :: as => { s with writeAnswers := as }
  | [] => { s with freeIndex := s.freeIndex + 1 }

/-- The constraint `|r| <= n` on the answer to a read of `n` bytes (R36, decision D28): an environment
that has more to give delivers its first `n` bytes. DESIGN CHOICE, notes/assumptions/4.md. -/
def ReadAnswer.upTo (n : Byte) : ReadAnswer → ReadAnswer
  | .ok r => .ok (r.take n.toNat)
  | .fault st => .fault st

/-- What the environment offers to the next bus read: the first queued answer, else a free value. -/
def nextReadOffer (s : State) : ReadAnswer :=
  match s.readAnswers with
  | a :: _ => a
  | [] => Config.freeReadAnswer s.freeIndex

/-- The answer the environment gives to the next bus read of `n` bytes. -/
def nextReadAnswer (n : Byte) (s : State) : ReadAnswer := ReadAnswer.upTo n (nextReadOffer s)

/-- The state after that answer is used up. -/
def popReadAnswer (s : State) : State :=
  match s.readAnswers with
  | _ :: as => { s with readAnswers := as }
  | [] => { s with freeIndex := s.freeIndex + 1 }

/-! ### The primitives (R8) -/

/-- `Tx(bs)` (R34, R130). -/
def transmit (bs : List Byte) (s : State) : State := record (.tx bs) s

/-- `BusWrite(cfg.freq, a, d)` (R35, R41): the answer, and the state with the event recorded. -/
def busWrite (a : Byte) (d : List Byte) (s : State) : WriteAnswer × State :=
  (nextWriteAnswer s,
    record (.busWrite s.cfg.freq a d (nextWriteAnswer s)) (popWriteAnswer s))

/-- `BusRead(cfg.freq, a, n)` (R36, R41): the answer, and the state with the event recorded. -/
def busRead (a n : Byte) (s : State) : ReadAnswer × State :=
  (nextReadAnswer n s,
    record (.busRead s.cfg.freq a n (nextReadAnswer n s)) (popReadAnswer s))

/-- A probe of address `a`: `BusWrite(cfg.freq, a, [])` (R42, decision D12). -/
def probe (a : Byte) (s : State) : WriteAnswer × State := busWrite a [] s

/-- `Delay(ms)` (R39); recorded for 0 ms as well (decision D20). -/
def delay (ms : Byte) (s : State) : State := record (.delay ms) s

/-- `PinWrite(p, v)` (R40). -/
def pinWrite (p : Byte) (v : Level) (s : State) : State := record (.pinWrite p v) s

/-- `s` when the first of its inputs has been accepted and `rest` are still to come (R24, R34). -/
def withInputs (rest : List Input) (s : State) : State := { s with inputs := rest }

/-! ### The Configuration Store -/

/-- A write of the Configuration Store (R110). -/
def setCfg (c : Cfg) (s : State) : State := { s with cfg := c }

/-- `reader_reset()` (R73). -/
def readerReset (s : State) : State := { s with len := 0#8, phase := .recv, dcr := false }

/-! ### Exceptions (60_exceptions.md) -/

/-- The exception classes (R8, R135 to R138); `Overflow` with the byte that overflowed. -/
inductive Exception where
  | overflow (b : Byte)
  | messageError
  | noCommand
  | busFault (st : Option Byte)
deriving DecidableEq, Repr

/-- Taking an exception. It "saves nothing and switches nothing": the response of the class is sent,
none for `Overflow`, which discards the frame in progress instead (R67, R135 to R138, R143). -/
def takeException : Exception → State → State
  | .overflow b, s =>
      record .overflow { s with len := 0#8, phase := .discard, dcr := crFlag b }
  | .messageError, s => transmit messageErrorFrame s
  | .noCommand, s => transmit noCommandFrame s
  | .busFault st, s => transmit (errorFrame st) s

/-- The return from `Overflow`, the one exception with something to return from: each byte in `DISCARD`
is dropped, and the terminator ends the discard (R69, R145). -/
def discardByte (b : Byte) (s : State) : State :=
  if s.dcr = true ∧ b = LF then { s with phase := .recv, dcr := false }
  else { s with dcr := crFlag b }

/-! ### The command loop's last step (R86) -/

/-- `Tx(encode(op, res))`: the response to an executed command; `BusFault` is the exception's (R86, R138). -/
def respond (op : Byte) (r : Result × State) : State :=
  match r.1 with
  | .statusCode addr st => transmit (encodeResponse op (.statusCode addr st)) r.2
  | .readPayload addr d => transmit (encodeResponse op (.readPayload addr d)) r.2
  | .deviceList found => transmit (encodeResponse op (.deviceList found)) r.2
  | .ack => transmit (encodeResponse op .ack) r.2
  | .busFault st => takeException (.busFault st) r.2

/-! ### The reset event (70_reset_and_hazards.md) -/

/-- Reset: every element of the block takes its reset value and no event is recorded (R155, R157). What
the environment has still to present, and the trace, are not the block's (R9, R24, R25). -/
def applyReset (s : State) : State :=
  { State.reset with
    inputs := s.inputs
    writeAnswers := s.writeAnswers
    readAnswers := s.readAnswers
    freeIndex := s.freeIndex
    trace := s.trace }

/-- The outside world's part of an event that has happened: the event is in the trace, and a bus event
has used up an answer. -/
def replayEvent (s : State) : Event → State
  | .tx bs => record (.tx bs) s
  | .busWrite f a d r => record (.busWrite f a d r) (popWriteAnswer s)
  | .busRead f a n r => record (.busRead f a n r) (popReadAnswer s)
  | .delay ms => record (.delay ms) s
  | .pinWrite p v => record (.pinWrite p v) s
  | .overflow => record .overflow s

/-- Reset while the step from `s` to `t` runs, after `k` of its events: "events already recorded have
happened, later ones do not, and no response is sent" (R156). -/
def abandonAfter (k : Nat) (s t : State) : State :=
  applyReset (((t.trace.drop s.trace.length).take k).foldl replayEvent s)

end Sys2Proof.Machine
end

