-- ==== Sys2Proof/Machine/Operands.lean ====
section
/-!
DEFINITION. What the commands and the reader take their operands from. A request's operands are bytes of
its body, read by the decoder (30_encoding.md R60, Sys2Proof/Decode.lean); here are the completed body
itself (40_frame_reader.md R66) and the address range DEVICELIST probes (20_memory.md R43).
-/

namespace Sys2Proof.Machine

/-- Whether the last stored byte is CR: `len >= 1 and buf[len-1] = 13` (R65). -/
def endsInCR (s : State) : Bool :=
  decide (1 ≤ s.len.toNat) && Memory.read s.buf (s.len.toNat - 1) == CR

/-- The body of the completed frame: `buf[0 : len-2]`, the `len - 1` bytes before the stored CR (R66). -/
def frameBody (s : State) : List Byte := Memory.firstBytes s.buf (s.len.toNat - 1)

/-- The addresses DEVICELIST probes, in probe order: `SCAN_FIRST` to `SCAN_LAST` ascending (R43, R101). -/
def scanAddresses : List Byte :=
  (List.range (Config.scanLast + 1 - Config.scanFirst)).map fun k =>
    BitVec.ofNat 8 (Config.scanFirst + k)

end Sys2Proof.Machine
end

