-- ==== Sys2Proof/Machine/BusManagement.lean ====
section
/-!
DEFINITION. The bus management commands CHECKDEVICE, DEVICELIST and RESETDEVICES (43_bus_management.md
R100 to R102).
-/

namespace Sys2Proof.Machine

/-- `execute(CheckDevice(addr))` (R100). -/
def executeCheckDevice (addr : Byte) (s : State) : Result × State :=
  match probe addr s with
  | (.fault st, s1) => (.busFault st, s1)
  | (.ok st, s1) => (.statusCode addr st, s1)

/-- CHECKDEVICE (R100). -/
def execCheckDevice (addr : Byte) (s : State) : Host.Outcome State Fault Refusal :=
  .next (respond (Instr.opcode (.checkDevice addr)) (executeCheckDevice addr s))

/-- The loop of DEVICELIST over the addresses still to probe, `found` collected so far (R101): a fault
abandons the scan (decision D16), status 0 collects the address, any other status does not. -/
def scan : List Byte → List Byte → State → Result × State
  | [], found, s => (.deviceList found, s)
  | a :: as, found, s =>
    match probe a s with
    | (.fault st, s1) => (.busFault st, s1)
    | (.ok .success, s1) => scan as (found ++ [a]) s1
    | (.ok .dataTooLong, s1) => scan as found s1
    | (.ok .addressNack, s1) => scan as found s1
    | (.ok .dataNack, s1) => scan as found s1
    | (.ok .otherError, s1) => scan as found s1

/-- `execute(DeviceList)` (R101). -/
def executeDeviceList (s : State) : Result × State := scan scanAddresses [] s

/-- DEVICELIST (R101). -/
def execDeviceList (s : State) : Host.Outcome State Fault Refusal :=
  .next (respond (Instr.opcode .deviceList) (executeDeviceList s))

/-- `execute(ResetDevices)` (R102). -/
def executeResetDevices (s : State) : Result × State :=
  let s1 := pinWrite s.cfg.resetPin .low s
  let s2 := delay s.cfg.resetPulse s1
  let s3 := pinWrite s.cfg.resetPin .high s2
  let s4 := delay s.cfg.resetSettle s3
  (.ack, s4)

/-- RESETDEVICES (R102). -/
def execResetDevices (s : State) : Host.Outcome State Fault Refusal :=
  .next (respond (Instr.opcode .resetDevices) (executeResetDevices s))

end Sys2Proof.Machine
end

