-- ==== Sys2Proof/Machine/BusTransfer.lean ====
section
/-!
DEFINITION. The bus transfer commands WRITE, READ and WRITEREAD (42_bus_transfer.md R90 to R92): each
`execute` function, and the meaning, which sends its response (41_decoder.md R86).
-/

namespace Sys2Proof.Machine

/-- `execute(Write(addr, data))` (R90). -/
def executeWrite (addr : Byte) (data : List Byte) (s : State) : Result × State :=
  match busWrite addr data s with
  | (.fault st, s1) => (.busFault st, s1)
  | (.ok st, s1) => (.statusCode addr st, s1)

/-- WRITE (R90). -/
def execWrite (addr : Byte) (data : List Byte) (s : State) : Host.Outcome State Fault Refusal :=
  .next (respond (Instr.opcode (.write addr data)) (executeWrite addr data s))

/-- `execute(Read(addr, count))` (R91). -/
def executeRead (addr count : Byte) (s : State) : Result × State :=
  match busRead addr count s with
  | (.fault st, s1) => (.busFault st, s1)
  | (.ok d, s1) => (.readPayload addr d, s1)

/-- READ (R91). -/
def execRead (addr count : Byte) (s : State) : Host.Outcome State Fault Refusal :=
  .next (respond (Instr.opcode (.read addr count)) (executeRead addr count s))

/-- `execute(WriteRead(addr, wdata, rcount))` (R92): a status from the write step is not used and not
reported (decision D17); a fault of it ends the command before the delay and the read. -/
def executeWriteRead (addr : Byte) (wdata : List Byte) (rcount : Byte) (s : State) : Result × State :=
  match busWrite addr wdata s with
  | (.fault st, s1) => (.busFault st, s1)
  | (.ok _, s1) =>
    match busRead addr rcount (delay s1.cfg.wrDelay s1) with
    | (.fault st, s2) => (.busFault st, s2)
    | (.ok d, s2) => (.readPayload addr d, s2)

/-- WRITEREAD (R92). -/
def execWriteRead (addr : Byte) (wdata : List Byte) (rcount : Byte) (s : State) :
    Host.Outcome State Fault Refusal :=
  .next (respond (Instr.opcode (.writeRead addr wdata rcount)) (executeWriteRead addr wdata rcount s))

end Sys2Proof.Machine
end

