-- ==== Sys2Proof/Machine/Configuration.lean ====
section
/-!
DEFINITION. The seven configuration commands (44_configuration.md R110 to R117): each writes one `cfg`
field and answers Ack.
-/

namespace Sys2Proof.Machine

/-- RESETI2CFREQ: `cfg.freq <- default` (R111). -/
def execResetI2CFreq (s : State) : Host.Outcome State Fault Refusal :=
  .next (respond (Instr.opcode .resetI2CFreq) (.ack, setCfg { s.cfg with freq := .default } s))

/-- SET400KHZ: `cfg.freq <- fast400k` (R112). -/
def execSet400kHz (s : State) : Host.Outcome State Fault Refusal :=
  .next (respond (Instr.opcode .set400kHz) (.ack, setCfg { s.cfg with freq := .fast400k } s))

/-- SETWRITEREADDELAY: `cfg.wrDelay <- p` (R113). -/
def execSetWriteReadDelay (p : Byte) (s : State) : Host.Outcome State Fault Refusal :=
  .next (respond (Instr.opcode (.setWriteReadDelay p)) (.ack, setCfg { s.cfg with wrDelay := p } s))

/-- SETRESETPIN: `cfg.resetPin <- p` (R114). -/
def execSetResetPin (p : Byte) (s : State) : Host.Outcome State Fault Refusal :=
  .next (respond (Instr.opcode (.setResetPin p)) (.ack, setCfg { s.cfg with resetPin := p } s))

/-- SETRESETTIME: `cfg.resetPulse <- p` (R115). -/
def execSetResetTime (p : Byte) (s : State) : Host.Outcome State Fault Refusal :=
  .next (respond (Instr.opcode (.setResetTime p)) (.ack, setCfg { s.cfg with resetPulse := p } s))

/-- SETRESETSETTLETIME: `cfg.resetSettle <- p` (R116). -/
def execSetResetSettleTime (p : Byte) (s : State) : Host.Outcome State Fault Refusal :=
  .next (respond (Instr.opcode (.setResetSettleTime p)) (.ack, setCfg { s.cfg with resetSettle := p } s))

/-- SETINPUTBUFFERSIZE: `cfg.cap <- p`, then `reader_reset()` (R73, R117). -/
def execSetInputBufferSize (p : Byte) (s : State) : Host.Outcome State Fault Refusal :=
  .next (respond (Instr.opcode (.setInputBufferSize p))
    (.ack, readerReset (setCfg { s.cfg with cap := p } s)))

end Sys2Proof.Machine
end

