-- ==== Sys2Proof/Machine/NonCommands.lean ====
section
/-!
DEFINITION. The four rows of the opcode table that are not commands, as the first byte of a request: each
raises `NoCommand` (30_encoding.md R63, 41_decoder.md R83, 60_exceptions.md R137). That the block EMITS
106, 107 and 108 is in `takeException` (Machine/Ops.lean).
-/

namespace Sys2Proof.Machine

/-- A request whose first byte is ERROR (106) (R63, R126). -/
def execError (s : State) : Host.Outcome State Fault Refusal := .next (takeException .noCommand s)

/-- A request whose first byte is MESSAGEERROR (107) (R63, R127). -/
def execMessageError (s : State) : Host.Outcome State Fault Refusal := .next (takeException .noCommand s)

/-- A request whose first byte is NOCOMMAND (108) (R63, R128). -/
def execNoCommand (s : State) : Host.Outcome State Fault Refusal := .next (takeException .noCommand s)

/-- A request whose first byte is INFO (109) (R63, R129). -/
def execInfo (s : State) : Host.Outcome State Fault Refusal := .next (takeException .noCommand s)

end Sys2Proof.Machine
end

