-- ==== Sys2Proof/Machine/Dispatch.lean ====
section
/-! DEFINITION. One arm per row of spec/opcode_table.json. -/

namespace Sys2Proof.Machine

/-- The execution of a decoded instruction, its response included (41_decoder.md R86). -/
def exec (i : Instr) (s : State) : Host.Outcome State Fault Refusal :=
  match i with
  | .write addr data => Sys2Proof.Machine.execWrite addr data s
  | .read addr count => Sys2Proof.Machine.execRead addr count s
  | .writeRead addr wdata rcount => Sys2Proof.Machine.execWriteRead addr wdata rcount s
  | .checkDevice addr => Sys2Proof.Machine.execCheckDevice addr s
  | .deviceList => Sys2Proof.Machine.execDeviceList s
  | .resetDevices => Sys2Proof.Machine.execResetDevices s
  | .error => Sys2Proof.Machine.execError s
  | .messageError => Sys2Proof.Machine.execMessageError s
  | .noCommand => Sys2Proof.Machine.execNoCommand s
  | .info => Sys2Proof.Machine.execInfo s
  | .resetI2CFreq => Sys2Proof.Machine.execResetI2CFreq s
  | .set400kHz => Sys2Proof.Machine.execSet400kHz s
  | .setWriteReadDelay p => Sys2Proof.Machine.execSetWriteReadDelay p s
  | .setResetPin p => Sys2Proof.Machine.execSetResetPin p s
  | .setResetTime p => Sys2Proof.Machine.execSetResetTime p s
  | .setResetSettleTime p => Sys2Proof.Machine.execSetResetSettleTime p s
  | .setInputBufferSize p => Sys2Proof.Machine.execSetInputBufferSize p s

end Sys2Proof.Machine
end

