-- ==== Sys2Proof/Machine/Reader.lean ====
section
/-!
DEFINITION. The Frame Reader (40_frame_reader.md R65 to R69), the command loop (41_decoder.md R86), and
what one architectural step does with what the outside world presents (00_scope.md R6).
-/

namespace Sys2Proof.Machine

/-- The four exclusive arms of `feed` (R65). -/
inductive Arm where
  | complete
  | overflow
  | append
  | discard
deriving DecidableEq, Repr

/-- Which arm takes the byte `b`: "tested in the order written; that order is normative" (R65, R141). -/
def readerArm (b : Byte) (s : State) : Arm :=
  match s.phase with
  | .recv =>
      if endsInCR s = true ∧ b = LF then .complete
      else if s.cfg.cap.toNat ≤ s.len.toNat then .overflow
      else .append
  | .discard => .discard

/-- The append arm: `buf[len] <- b ; len <- len + 1` (R68). -/
def appendByte (b : Byte) (s : State) : State :=
  { s with buf := Memory.write s.buf s.len.toNat b, len := s.len + 1#8 }

/-- `run_command(body)` (R86). -/
def runCommand (body : List Byte) (s : State) : Host.Outcome State Fault Refusal :=
  match decode body with
  | .messageError => .next (takeException .messageError s)
  | .noCommand => .next (takeException .noCommand s)
  | .instr i => exec i s

/-- The state in which a completed frame's command runs: `len <- 0` (R66). -/
def emptied (s : State) : State := { s with len := 0#8 }

/-- `feed(b)` (R65 to R69). -/
def feed (b : Byte) (s : State) : Host.Outcome State Fault Refusal :=
  match readerArm b s with
  | .complete => runCommand (frameBody s) (emptied s)
  | .overflow => .next (takeException (.overflow b) s)
  | .append => .next (appendByte b s)
  | .discard => .next (discardByte b s)

/-- Reset in the middle of a step that would have answered `o` (R156). -/
def abandonOutcome (k : Nat) (s : State) (o : Host.Outcome State Fault Refusal) :
    Host.Outcome State Fault Refusal :=
  match o with
  | .next t => .next (abandonAfter k s t)
  | .fault r => .fault r
  | .refused r => .refused r

/-- One architectural step (R6): accept what is first among the inputs. With nothing there the block is
"simply ready for the next byte" (R150) and stays as it is. -/
def acceptInput (s : State) : Host.Outcome State Fault Refusal :=
  match s.inputs with
  | [] => .next s
  | .rx b :: rest => feed b (withInputs rest s)
  | .reset :: rest => .next (applyReset (withInputs rest s))
  | .rxThenReset b k :: rest =>
      abandonOutcome k (withInputs rest s) (feed b (withInputs rest s))

/-- `s` with the frame body `body` received up to and including the CR of its terminator, and the LF the
next byte of `RX`: one step more completes the frame and runs it. The buffer's 255 cells hold a body of
at most 254 bytes (R33). -/
def loadFrame (body : List Byte) (s : State) : State :=
  { s with
    phase := .recv
    buf := Memory.writeAll s.buf 0 (body.take 254 ++ [CR])
    len := BitVec.ofNat 8 ((body.take 254).length + 1)
    inputs := .rx LF :: s.inputs }

end Sys2Proof.Machine
end

