-- ==== Sys2Proof/Machine/Step.lean ====
section
/-!
DEFINITION. The step of the block: accept one inbound byte (00_scope.md R6), and the state in which the
next step runs a given word of the opcode table.
-/

namespace Sys2Proof.Machine

/-- One architectural step (R6). -/
def step (s : State) : Host.Outcome State Fault Refusal := acceptInput s

/-- `s` with the instruction of an opcode-table word received but for the last byte of its terminator, so
that the next step runs it (notes/assumptions/10.md, notes/assumptions/11.md). -/
def State.withFetchWord (s : State) (nbits w : Nat) : State := loadFrame (tableBody nbits w) s

end Sys2Proof.Machine
end

