-- ==== Sys2Proof/Safety.lean ====
section
/-!
DEFINITION. What counts as a safe run, and the words the statements are written in: the invariant of the
reader (40_frame_reader.md R75), runs of several steps, and views of the event trace (00_scope.md R9,
10_state.md R25).
-/

namespace Sys2Proof.Machine

/-- A step is safe when the block goes on (R86). -/
def SafeStep (s : State) : Prop := ∃ t, step s = .next t

/-- The invariant of the reader: the frame buffer is in canonical form, `len <= cfg.cap` (R75(a)), `len`
is 0 in `DISCARD` (R13), and `dcr` is 0 in `RECV` (R14). -/
abbrev Inv (s : State) : Prop :=
  Memory.wf s.buf = true ∧ s.len.toNat ≤ s.cfg.cap.toNat ∧
    (s.phase = .discard → s.len = 0#8) ∧ (s.phase = .recv → s.dcr = false)

/-- `n` steps, stopping where one does not answer a next state. -/
def runSteps : Nat → State → Host.Outcome State Fault Refusal
  | 0, s => .next s
  | n + 1, s =>
    match step s with
    | .next t => runSteps n t
    | .fault r => .fault r
    | .refused r => .refused r

/-- Bytes of `RX` with no reset among them. -/
def rxBytes (bs : List Byte) : List Input := bs.map Input.rx

/-- The events recorded between `s` and a later state `t`. -/
def newEvents (s t : State) : List Event := t.trace.drop s.trace.length

/-- The `TX` stream: "the concatenation of all `Tx` events" (R34). -/
def txStream : List Event → List Byte
  | [] => []
  | .tx bs :: es => bs ++ txStream es
  | .busWrite _ _ _ _ :: es => txStream es
  | .busRead _ _ _ _ :: es => txStream es
  | .delay _ :: es => txStream es
  | .pinWrite _ _ :: es => txStream es
  | .overflow :: es => txStream es

/-- The level pin `p` was last driven to: "a function of the event trace" (R25(c)). -/
def pinLevel (p : Byte) : List Event → Option Level
  | [] => none
  | .pinWrite q v :: es => (pinLevel p es).orElse fun _ => if q = p then some v else none
  | .tx _ :: es => pinLevel p es
  | .busWrite _ _ _ _ :: es => pinLevel p es
  | .busRead _ _ _ _ :: es => pinLevel p es
  | .delay _ :: es => pinLevel p es
  | .overflow :: es => pinLevel p es

/-- The event is a `Tx`. -/
def Event.isTx : Event → Bool
  | .tx _ => true
  | .busWrite _ _ _ _ => false
  | .busRead _ _ _ _ => false
  | .delay _ => false
  | .pinWrite _ _ => false
  | .overflow => false

/-- The event is a `BusWrite`. -/
def Event.isBusWrite : Event → Bool
  | .busWrite _ _ _ _ => true
  | .tx _ => false
  | .busRead _ _ _ _ => false
  | .delay _ => false
  | .pinWrite _ _ => false
  | .overflow => false

/-- The event is a `BusRead`. -/
def Event.isBusRead : Event → Bool
  | .busRead _ _ _ _ => true
  | .tx _ => false
  | .busWrite _ _ _ _ => false
  | .delay _ => false
  | .pinWrite _ _ => false
  | .overflow => false

/-- The event is a `PinWrite`. -/
def Event.isPinWrite : Event → Bool
  | .pinWrite _ _ => true
  | .tx _ => false
  | .busWrite _ _ _ _ => false
  | .busRead _ _ _ _ => false
  | .delay _ => false
  | .overflow => false

/-- The event is a `Delay`. -/
def Event.isDelay : Event → Bool
  | .delay _ => true
  | .tx _ => false
  | .busWrite _ _ _ _ => false
  | .busRead _ _ _ _ => false
  | .pinWrite _ _ => false
  | .overflow => false

/-- The frequency mode of a bus event (R41). -/
def Event.busMode : Event → Option FreqMode
  | .busWrite f _ _ _ => some f
  | .busRead f _ _ _ => some f
  | .tx _ => none
  | .delay _ => none
  | .pinWrite _ _ => none
  | .overflow => none

/-- The `st` of a bus event answered `Fault(st)` (R138). -/
def Event.faultStatus : Event → Option (Option Byte)
  | .busWrite _ _ _ (.fault st) => some st
  | .busRead _ _ _ (.fault st) => some st
  | .busWrite _ _ _ (.ok _) => none
  | .busRead _ _ _ (.ok _) => none
  | .tx _ => none
  | .delay _ => none
  | .pinWrite _ _ => none
  | .overflow => none

/-- No byte 13 of the sequence is immediately followed by 10 (the hazard of R160). -/
def noTerminatorPair : List Byte → Bool
  | [] => true
  | [_] => true
  | a :: b :: bs => !(a == CR && b == LF) && noTerminatorPair (b :: bs)

/-- The answer the environment would give to the bus write that follows `k` others. -/
def writeAnswerAfter : Nat → State → WriteAnswer
  | 0, s => nextWriteAnswer s
  | k + 1, s => writeAnswerAfter k (popWriteAnswer s)

/-- Everything of the block but the trace and the outside world's answers is the same in both. -/
def SameBlock (s t : State) : Prop :=
  t.phase = s.phase ∧ t.len = s.len ∧ t.dcr = s.dcr ∧ t.cfg = s.cfg ∧ t.inputs = s.inputs ∧
    ∀ n, Memory.read t.buf n = Memory.read s.buf n

/-- The states agree on everything but cells of the frame buffer at offsets `len` and above (R12). -/
def AgreeBelowLen (s t : State) : Prop :=
  t = { s with buf := t.buf } ∧ ∀ n, n < s.len.toNat → Memory.read t.buf n = Memory.read s.buf n

end Sys2Proof.Machine
end

