-- ==== Sys2Proof/Certificates/Slice0/Obligations.lean ====
section
/-!
DEFINITION. The statements for the provers, each a Prop about the model, written from the numbered rules
of spec/. Where a statement rests on a decision of the spec or on the model's own choice, its docstring
names it.
-/

open Sys2Proof Sys2Proof.Machine

/-! ### Reset, the invariant, the step -/

/-- 70_reset_and_hazards.md R157: whatever the state, the reset input leaves every element of the block at
its reset value, so nothing of the block persists. -/
def Obligations.NothingOfTheBlockPersistsAcrossReset : Prop :=
  ∀ (s : State) (rest : List Input), s.inputs = .reset :: rest →
    ∃ t, step s = .next t ∧ t.cfg = State.reset.cfg ∧ t.phase = State.reset.phase ∧
      t.len = State.reset.len ∧ t.dcr = State.reset.dcr ∧ t.buf = State.reset.buf

/-- 10_state.md section 7 and 70_reset_and_hazards.md R155: the reset values of `phase`, `len`, `dcr`, `cfg.cap`
and `cfg.freq`, and that reset records no event. That startup is a reset event is decision D23 of the spec, and
`cfg.freq` at reset is its decision D11. The other clauses are the model's: that the four OPEN parameters
(decision D10) are opaque constants is notes/assumptions/6.md; that every cell of `buf`, none of which holds a
value after reset (R12), reads as an unlisted cell does is notes/assumptions/7.md; that the inputs, the answers
of the bus, the counter of free values and the trace are left as they are is notes/assumptions/17.md (DEDUCED). -/
def Obligations.ResetGivesTheResetValuesWithoutAnEvent : Prop :=
  ∀ (s : State) (rest : List Input), s.inputs = .reset :: rest →
    ∃ t, step s = .next t ∧ t.phase = .recv ∧ t.len.toNat = 0 ∧ t.dcr = false ∧
      (∀ n, Memory.read t.buf n = Memory.unlisted) ∧
      t.cfg.cap.toNat = 128 ∧ t.cfg.freq = .default ∧ t.cfg.wrDelay = Config.rstWrDelayMs ∧
      t.cfg.resetPin = Config.rstResetPin ∧ t.cfg.resetPulse = Config.rstResetPulseMs ∧
      t.cfg.resetSettle = Config.rstResetSettleMs ∧
      t.inputs = rest ∧ t.writeAnswers = s.writeAnswers ∧ t.readAnswers = s.readAnswers ∧
      t.freeIndex = s.freeIndex ∧ t.trace = s.trace

/-- 70_reset_and_hazards.md R156 (decision D23): reset while a step runs. The first `k` events of the step
have happened, later ones do not; the block is in its reset state; the environment has given the answers
of the bus events that happened and no others. That the instant of reset is counted in recorded events is
the model's choice (notes/assumptions/5.md), and so is that the bytes and answers still to come survive the
reset (notes/assumptions/17.md, DEDUCED); that `buf` is the empty list of cells is its form of an empty buffer
(notes/assumptions/7.md). -/
def Obligations.ResetDuringAStepKeepsOnlyWhatHappened : Prop :=
  ∀ (s t : State) (b : Byte) (k : Nat) (rest : List Input),
    s.inputs = .rxThenReset b k :: rest → feed b (withInputs rest s) = .next t →
    ∃ u, step s = .next u ∧ u.trace = s.trace ++ (newEvents s t).take k ∧
      u.phase = .recv ∧ u.buf = [] ∧ u.len.toNat = 0 ∧ u.dcr = false ∧ u.cfg = State.reset.cfg ∧
      u.inputs = rest ∧
      u.writeAnswers = s.writeAnswers.drop (((newEvents s t).take k).countP Event.isBusWrite) ∧
      u.readAnswers = s.readAnswers.drop (((newEvents s t).take k).countP Event.isBusRead)

/-- The invariant of the reader (40_frame_reader.md R75(a), 10_state.md R13, R14) holds after reset. -/
def Obligations.ReaderInvariantAtReset : Prop := Inv State.reset

/-- 40_frame_reader.md R75(a), 10_state.md R13 and R14: every step keeps the invariant, from every state
that has it, whatever the outside world presents. The canonical form of `buf` is the model's. -/
def Obligations.ReaderInvariantKeptByEveryStep : Prop :=
  ∀ s t : State, Inv s → step s = .next t → Inv t

/-- 41_decoder.md R86, 60_exceptions.md R140: "It cannot fail, loop forever": no instruction and no input
stops the block. It rests on decision D29 (every bus operation and delay returns). -/
def Obligations.EveryStepAndEveryInstructionGoesOn : Prop :=
  (∀ s : State, SafeStep s) ∧ ∀ (i : Instr) (s : State), ∃ t, exec i s = .next t

/-- 60_exceptions.md R150: between frames the block is "simply ready for the next byte". That waiting is a
step that changes nothing is the model's choice (notes/assumptions/2.md). -/
def Obligations.WaitingForAByteChangesNothing : Prop :=
  ∀ s : State, s.inputs = [] → step s = .next s

/-- 00_scope.md R9, 20_memory.md R45: events are recorded in one order; no step ever takes one back. -/
def Obligations.TraceOnlyGrows : Prop :=
  ∀ s t : State, step s = .next t → s.trace <+: t.trace

/-- 40_frame_reader.md R66 and 41_decoder.md R86: the LF that completes a frame whose body decodes to `i`
makes the step run `i`, in the state with the LF taken from `RX` and `len` 0. -/
def Obligations.StepRunsTheDecodedInstruction : Prop :=
  ∀ (s : State) (rest : List Input) (i : Instr),
    s.inputs = .rx 10#8 :: rest → s.phase = .recv → 1 ≤ s.len.toNat →
    Memory.read s.buf (s.len.toNat - 1) = 13#8 →
    decode ((List.range (s.len.toNat - 1)).map (Memory.read s.buf)) = .instr i →
    step s = exec i { s with inputs := rest, len := 0#8 }

/-- The host's fetch word: where the decoder reads instruction `i` from an opcode-table word, the next step
after placing that word runs `i`. The placing is the model's choice (notes/assumptions/10.md). -/
def Obligations.FetchedTableWordRunsItsInstruction : Prop :=
  ∀ (s : State) (nbits w : Nat) (i : Instr),
    Memory.wf s.buf = true → (tableBody nbits w).length ≤ 254 → decodeTableWord nbits w = some i →
    step (s.withFetchWord nbits w) =
      exec i { s.withFetchWord nbits w with inputs := s.inputs, len := 0#8 }

/-! ### The Frame Reader -/

/-- 40_frame_reader.md R66: the completing byte runs the body, the `len - 1` bytes before the stored CR;
`len` becomes 0 and the LF is not stored. The order of the reader's tests, by which a full buffer still
completes, is decision D1 of the spec (R65, R141). -/
def Obligations.TerminatorCompletesTheFrame : Prop :=
  ∀ (s : State) (rest : List Input),
    s.inputs = .rx 10#8 :: rest → s.phase = .recv → 1 ≤ s.len.toNat →
    Memory.read s.buf (s.len.toNat - 1) = 13#8 →
    ∃ body : List Byte, body.length = s.len.toNat - 1 ∧
      (∀ n, n < s.len.toNat - 1 → body.getD n 0#8 = Memory.read s.buf n) ∧
      step s = runCommand body { s with inputs := rest, len := 0#8 }

/-- 40_frame_reader.md R67, 60_exceptions.md R135, with the order of tests of R65 and R141: any other byte at
a full buffer discards the frame in progress, without a response. Silence is decision D2 of the spec, the
new `dcr` its decision D3, the order of tests its decision D1. -/
def Obligations.ByteAtAFullBufferOverflows : Prop :=
  ∀ (s : State) (b : Byte) (rest : List Input),
    s.inputs = .rx b :: rest → s.phase = .recv → s.cfg.cap.toNat ≤ s.len.toNat →
    ¬ (1 ≤ s.len.toNat ∧ Memory.read s.buf (s.len.toNat - 1) = 13#8 ∧ b = 10#8) →
    step s = .next { s with
      inputs := rest
      phase := .discard
      len := 0#8
      dcr := decide (b = 13#8)
      trace := s.trace ++ [.overflow] }

/-- 40_frame_reader.md R68, with the condition "not complete" of R65 and R66 written out: the byte goes to
cell `len`, whatever its value, `len` goes up by one, and nothing else changes. -/
def Obligations.AppendStoresTheByteAtLen : Prop :=
  ∀ (s : State) (b : Byte) (rest : List Input),
    Memory.wf s.buf = true → s.inputs = .rx b :: rest → s.phase = .recv →
    s.len.toNat < s.cfg.cap.toNat →
    ¬ (1 ≤ s.len.toNat ∧ Memory.read s.buf (s.len.toNat - 1) = 13#8 ∧ b = 10#8) →
    ∃ t, step s = .next t ∧ t.len.toNat = s.len.toNat + 1 ∧
      Memory.read t.buf s.len.toNat = b ∧
      (∀ n, n ≠ s.len.toNat → Memory.read t.buf n = Memory.read s.buf n) ∧
      t = { s with inputs := rest, buf := t.buf, len := t.len }

/-- 40_frame_reader.md R69, 60_exceptions.md R145: in `DISCARD` every byte is dropped, nothing is sent, and
the adjacent 13, 10 returns to `RECV`. The part the last dropped CR plays is decision D3 of the spec. -/
def Obligations.DiscardDropsBytesUntilTheTerminator : Prop :=
  ∀ (s : State) (b : Byte) (rest : List Input),
    s.inputs = .rx b :: rest → s.phase = .discard →
    (s.dcr = true ∧ b = 10#8 →
      step s = .next { s with inputs := rest, phase := .recv, dcr := false }) ∧
    (¬ (s.dcr = true ∧ b = 10#8) →
      step s = .next { s with inputs := rest, dcr := decide (b = 13#8) })

/-- 40_frame_reader.md R75(b), R66, R68, R71: a body of at most `cap - 1` bytes that holds no adjacent 13, 10,
sent from between frames with its terminator, is delivered to the command loop whole, whatever its bytes
mean; the bytes after the terminator stay for the next frame. Decision D1 of the spec fixes the bound. -/
def Obligations.DeliverableBodyReachesTheCommandLoop : Prop :=
  ∀ (s : State) (body : List Byte) (rest : List Input),
    Inv s → s.phase = .recv → s.len = 0#8 → body.length + 1 ≤ s.cfg.cap.toNat →
    noTerminatorPair body = true → s.inputs = rxBytes (body ++ [13#8, 10#8]) ++ rest →
    ∃ buf, runSteps (body.length + 2) s = runCommand body { s with buf := buf, inputs := rest }

/-- The whole path of one command (00_scope.md R2, R6; 30_encoding.md R50, R64; 40_frame_reader.md R75(b);
41_decoder.md R81, R86): the request frame of a well-formed instruction that fits the capacity and holds no
adjacent 13, 10 (R160), sent from between frames, runs that instruction and nothing else. -/
def Obligations.RequestFrameRunsItsInstruction : Prop :=
  ∀ (s : State) (i : Instr) (rest : List Input),
    Inv s → s.phase = .recv → s.len = 0#8 → i.WellFormed → (encode i).length + 1 ≤ s.cfg.cap.toNat →
    noTerminatorPair (encode i) = true → s.inputs = rxBytes (encodeFrame i) ++ rest →
    ∃ buf, runSteps ((encodeFrame i).length) s = exec i { s with buf := buf, inputs := rest }

/-- 20_memory.md R45, R47, 70_reset_and_hazards.md R164: two request frames sent one right after the other run in
their order, the second in the configuration the first leaves. The lossless inbound queue is decision D31
of the spec. -/
def Obligations.PipelinedFramesRunInOrder : Prop :=
  ∀ (s t : State) (i j : Instr) (rest : List Input),
    Inv s → s.phase = .recv → s.len = 0#8 →
    i.WellFormed → (encode i).length + 1 ≤ s.cfg.cap.toNat → noTerminatorPair (encode i) = true →
    s.inputs = rxBytes (encodeFrame i) ++ (rxBytes (encodeFrame j) ++ rest) →
    runSteps (encodeFrame i).length s = .next t →
    j.WellFormed → (encode j).length + 1 ≤ t.cfg.cap.toNat → noTerminatorPair (encode j) = true →
    ∃ buf1 buf2,
      exec i { s with buf := buf1, inputs := rxBytes (encodeFrame j) ++ rest } = .next t ∧
      runSteps ((encodeFrame i).length + (encodeFrame j).length) s =
        exec j { t with buf := buf2, inputs := rest }

/-- 40_frame_reader.md R75(c), (d): byte number `cap + 1` of an unterminated frame raises `Overflow`, once,
and not before. Decisions D1, D2 and D3 of the spec. -/
def Obligations.ByteCapPlusOneOverflows : Prop :=
  ∀ (s : State) (bs : List Byte) (b : Byte) (rest : List Input),
    Inv s → s.phase = .recv → s.len = 0#8 → bs.length = s.cfg.cap.toNat →
    noTerminatorPair (bs ++ [b]) = true → s.inputs = rxBytes (bs ++ [b]) ++ rest →
    ∃ buf, runSteps (bs.length + 1) s = .next { s with
      buf := buf
      phase := .discard
      dcr := decide (b = 13#8)
      inputs := rest
      trace := s.trace ++ [.overflow] }

/-- 60_exceptions.md R135, 70_reset_and_hazards.md R163: in `DISCARD` all bytes through the next terminator are
dropped without an event, and the block is then between frames. The terminator is searched from the
overflowing byte on (decision D3 of the spec). -/
def Obligations.DiscardedFrameIsDroppedInSilence : Prop :=
  ∀ (s : State) (bs : List Byte) (rest : List Input),
    s.phase = .discard → noTerminatorPair bs = true → ¬ (s.dcr = true ∧ bs.head? = some 10#8) →
    s.inputs = rxBytes (bs ++ [13#8, 10#8]) ++ rest →
    runSteps (bs.length + 2) s = .next { s with phase := .recv, dcr := false, inputs := rest }

/-- 70_reset_and_hazards.md R159: the client's synchronisation, from any state the reader can be in. After one
13, 10 the block is between frames; the second is answered 107. With capacity 0, which the rule passes
over, every byte overflows instead (R75(d)). Rests on decisions D2, D3 and D4 of the spec. -/
def Obligations.TwoTerminatorsSynchroniseTheReader : Prop :=
  ∀ (s : State) (rest : List Input),
    Inv s → s.inputs = rxBytes [13#8, 10#8, 13#8, 10#8] ++ rest →
    ∃ u t, runSteps 2 s = .next u ∧ u.phase = .recv ∧ u.len = 0#8 ∧
      u.inputs = rxBytes [13#8, 10#8] ++ rest ∧
      runSteps 4 s = .next t ∧ t.phase = .recv ∧ t.len = 0#8 ∧ t.inputs = rest ∧
      (0 < u.cfg.cap.toNat → t.trace = u.trace ++ [.tx [107#8, 13#8, 10#8]]) ∧
      (u.cfg.cap.toNat = 0 → t.trace = u.trace ++ [.overflow])

/-- 70_reset_and_hazards.md R162: with a capacity of at most 2 no byte can change the capacity any more; the
reset input restores 128. Decisions D1 and D24 of the spec. -/
def Obligations.CapacityUpToTwoIsLeftOnlyByReset : Prop :=
  (∀ (s t : State) (b : Byte) (rest : List Input),
    Inv s → s.cfg.cap.toNat ≤ 2 → s.inputs = .rx b :: rest → step s = .next t →
    t.cfg.cap = s.cfg.cap) ∧
  ∀ (s t : State) (rest : List Input),
    s.inputs = .reset :: rest → step s = .next t → t.cfg.cap.toNat = 128

/-- 10_state.md R12 and 93_implementation_defined.md I15: cells at offsets `len` and above are never read. Two
states that differ in such cells only answer every step with states that differ in such cells only: the
same events, the same responses. -/
def Obligations.CellsBeyondLenAreNeverRead : Prop :=
  ∀ s t s' : State, Memory.wf s.buf = true → Memory.wf t.buf = true → AgreeBelowLen s t →
    step s = .next s' → ∃ t', step t = .next t' ∧ AgreeBelowLen s' t'

/-- 41_decoder.md R87, 20_memory.md R45: a byte that completes a frame gives exactly one response, and it is the
last event of the step; any other byte gives none. -/
def Obligations.OneResponsePerCompletedFrame : Prop :=
  ∀ (s t : State) (b : Byte), feed b s = .next t →
    (readerArm b s = .complete →
      ∃ es fr, newEvents s t = es ++ [.tx fr] ∧ ∀ e ∈ es, Event.isTx e = false) ∧
    (readerArm b s ≠ .complete → ∀ e ∈ newEvents s t, Event.isTx e = false)

/-- 60_exceptions.md R143, R145, 41_decoder.md R86: whatever the command or the exception, after a completed
frame the block is between frames, ready for the next. -/
def Obligations.CompletedFrameLeavesTheReaderEmpty : Prop :=
  ∀ (s t : State) (b : Byte), s.dcr = false → readerArm b s = .complete → feed b s = .next t →
    t.phase = .recv ∧ t.len = 0#8 ∧ t.dcr = false

/-! ### The Command Decoder -/

/-- 41_decoder.md R81, 30_encoding.md R52 to R58, R64: every well-formed instruction of the opcode table,
with every operand its encoding admits, decodes back from its canonical body. (For rows 106 to 109 the
instruction is the model's name of the row, notes/assumptions/8.md.) -/
def Obligations.DecodeOfEncodeIsTheInstruction : Prop :=
  ∀ i : Instr, i.WellFormed → decode (encode i) = .instr i

/-- The other direction (30_encoding.md R52 to R58): a body that decodes to `i` begins with the canonical
body of `i`, `i` is well-formed, and surplus bytes are there only where the formats ignore them: WRITE and
WRITEREAD (decision D7 of the spec) and the rows that are not commands (R83; notes/assumptions/9.md). -/
def Obligations.DecodedBodyBeginsWithItsCanonicalForm : Prop :=
  ∀ (body : List Byte) (i : Instr), decode body = .instr i →
    i.WellFormed ∧ ∃ surplus, body = encode i ++ surplus ∧
      (surplus ≠ [] → i.isCommand = false ∨ (∃ a d, i = .write a d) ∨ ∃ a w n, i = .writeRead a w n)

/-- 30_encoding.md R56 and R57, decision D7 of the spec: bytes after the last field of a WRITE or a
WRITEREAD are ignored. -/
def Obligations.SurplusBytesOfTransfersAreIgnored : Prop :=
  (∀ (addr : Byte) (data surplus : List Byte), data.length ≤ 255 →
    decode (encode (.write addr data) ++ surplus) = .instr (.write addr data)) ∧
  ∀ (addr rcount : Byte) (wdata surplus : List Byte), wdata.length ≤ 255 →
    decode (encode (.writeRead addr wdata rcount) ++ surplus) = .instr (.writeRead addr wdata rcount)

/-- 41_decoder.md R83: when `NoCommand` is raised. That 106 to 109 are among the values without a command is
decisions D5 and D19 of the spec. -/
def Obligations.NoCommandExactlyForOtherFirstBytes : Prop :=
  ∀ body : List Byte, decodeCommand body = .noCommand ↔
    ∃ op rest, body = op :: rest ∧
      op.toNat ∉ [100, 101, 102, 103, 104, 105, 110, 111, 112, 113, 114, 115, 116]

/-- 41_decoder.md R84 and the table of R82: the exact cases of `MessageError`. The empty body, the too long
body and the marker are decisions D4, D6 and D8 of the spec. -/
def Obligations.MessageErrorExactlyForMalformedBodies : Prop :=
  ∀ body : List Byte, decodeCommand body = .messageError ↔
    (body = [] ∨
    ∃ op rest, body = op :: rest ∧
      ((op.toNat ∈ [104, 105, 110, 111] ∧ body.length ≠ 1) ∨
       (op.toNat ∈ [103, 112, 113, 114, 115, 116] ∧ body.length ≠ 2) ∨
       (op.toNat = 101 ∧ body.length ≠ 3) ∨
       (op.toNat = 100 ∧ (body.length < 3 ∨ body.length - 3 < (body.getD 2 0#8).toNat)) ∨
       (op.toNat = 102 ∧ (body.length < 5 ∨ body.length < 5 + (body.getD 2 0#8).toNat ∨
          (body.getD (3 + (body.getD 2 0#8).toNat) 0#8).toNat ≠ 101))))

/-- Worked decodes of 41_decoder.md section 5 and of the wire images of 30_encoding.md R64, one or more of
every format. -/
def Obligations.WorkedDecodesOfTheSpec : Prop :=
  decode [100#8, 23#8, 1#8, 65#8] = .instr (.write 23#8 [65#8]) ∧
  decode [100#8, 23#8] = .messageError ∧
  decode [101#8, 23#8, 2#8] = .instr (.read 23#8 2#8) ∧
  decode [102#8, 80#8, 1#8, 0#8, 101#8, 2#8] = .instr (.writeRead 80#8 [0#8] 2#8) ∧
  decode [102#8, 80#8, 1#8, 0#8, 100#8, 2#8] = .messageError ∧
  decode [103#8, 33#8] = .instr (.checkDevice 33#8) ∧
  decode [104#8] = .instr .deviceList ∧
  decode [104#8, 0#8] = .messageError ∧
  decode [116#8, 64#8] = .instr (.setInputBufferSize 64#8) ∧
  decode [255#8, 1#8, 2#8] = .noCommand

/-- 41_decoder.md R86 with the literal decoder of R81: a rejected body sends its error frame and has no
other effect (60_exceptions.md R136, R137, R144); a command is executed. Rests on the decisions of the
spec about what is rejected (D4 to D6, D8, D18, D19). -/
def Obligations.CommandLoopFollowsTheDecoder : Prop :=
  ∀ (body : List Byte) (s : State),
    (decodeCommand body = .messageError →
      runCommand body s = .next { s with trace := s.trace ++ [.tx [107#8, 13#8, 10#8]] }) ∧
    (decodeCommand body = .noCommand →
      runCommand body s = .next { s with trace := s.trace ++ [.tx [108#8, 13#8, 10#8]] }) ∧
    ∀ i, decodeCommand body = .instr i → i.isCommand = true ∧ runCommand body s = exec i s

/-- 45_response_encoder.md R127: MESSAGEERROR is emitted when the decoder raises `MessageError`, as
`[107, 13, 10]`; the rejected frame has no effect but this response; never a request. -/
def Obligations.MalformedFrameIsAnsweredMessageError : Prop :=
  (∀ (body : List Byte) (s : State), decode body = .messageError →
    runCommand body s = .next { s with trace := s.trace ++ [.tx [107#8, 13#8, 10#8]] }) ∧
  (∀ s : State, runCommand [100#8, 23#8] s =
    .next { s with trace := s.trace ++ [.tx [107#8, 13#8, 10#8]] }) ∧
  ∀ (body : List Byte) (i : Instr), decodeCommand body = .instr i → i.opcode ≠ 107#8

/-- 30_encoding.md R63, 41_decoder.md R83, 45_response_encoder.md R126 to R129 (decisions D5 and D19 of the
spec): the four rows of the opcode table that are not commands, as a request, raise `NoCommand`, and have
no other effect. That the decoder names the row is the model's choice (notes/assumptions/8.md). -/
def Obligations.RowsThatAreNotCommandsRaiseNoCommand : Prop :=
  ∀ (s : State) (i : Instr), i = .error ∨ i = .messageError ∨ i = .noCommand ∨ i = .info →
    exec i s = .next { s with trace := s.trace ++ [.tx [108#8, 13#8, 10#8]] }

/-! ### The Response Encoder -/

/-- 45_response_encoder.md R121 and R124, with the encodings of R122 and R123: the four normal encodings byte
for byte, the count bytes read back as the number of bytes that follow, and an Ack beside the request frame
it answers. -/
def Obligations.NormalResponseEncodings : Prop :=
  (∀ (op addr : Byte) (st : BusStatus), op = 100#8 ∨ op = 103#8 →
    encodeResponse op (.statusCode addr st) = [op, addr, statusByte st, 13#8, 10#8] ∧
    (statusByte st).toNat = match st with
      | .success => 0 | .dataTooLong => 1 | .addressNack => 2 | .dataNack => 3 | .otherError => 4) ∧
  (∀ (op addr : Byte) (d : List Byte), op = 101#8 ∨ op = 102#8 → d.length ≤ 255 →
    ∃ n : Byte, n.toNat = d.length ∧
      encodeResponse op (.readPayload addr d) = [op, addr, n] ++ d ++ [13#8, 10#8] ∧
      (encodeResponse op (.readPayload addr d)).length = 5 + d.length) ∧
  (∀ found : List Byte, found.length ≤ 126 →
    ∃ n : Byte, n.toNat = found.length ∧
      encodeResponse 104#8 (.deviceList found) = [104#8, n] ++ found ++ [13#8, 10#8] ∧
      (encodeResponse 104#8 (.deviceList found)).length = 4 + found.length) ∧
  (∀ op : Byte, encodeResponse op .ack = [op, 13#8, 10#8]) ∧
  (∀ i : Instr, i = .resetDevices ∨ i = .resetI2CFreq ∨ i = .set400kHz →
    encodeResponse i.opcode .ack = encodeFrame i) ∧
  ∀ (p : Byte) (i : Instr), i = .setWriteReadDelay p ∨ i = .setResetPin p ∨ i = .setResetTime p ∨
      i = .setResetSettleTime p ∨ i = .setInputBufferSize p →
    encodeResponse i.opcode .ack = (encodeFrame i).eraseIdx 1

/-- 45_response_encoder.md R125(b), (d), (e), R120, R126 to R129: every response ends in 13, 10 and is at most
260 bytes long. In every state, the response to a command begins with its opcode or is the ERROR frame, and that
of a row that is no command begins with 108; over bodies, by the literal decoder of R81, the response to a
rejected body begins with 107 for `MessageError` and 108 for `NoCommand`. Which bodies are rejected rests on
decisions D4 to D6, D8 and D19 of the spec, the NOCOMMAND frame on its D18; that rows 106 to 109 are
instructions is the model's choice (notes/assumptions/8.md). -/
def Obligations.EveryResponseIsAClosedFrame : Prop :=
  (∀ (i : Instr) (s : State), ∃ t fr, exec i s = .next t ∧
    t.trace.getLast? = some (.tx (fr ++ [13#8, 10#8])) ∧ fr.length ≤ 258 ∧
    (i.isCommand = true → fr.head? = some i.opcode ∨ fr.head? = some 106#8) ∧
    (i.isCommand = false → fr.head? = some 108#8)) ∧
  ∀ (body : List Byte) (s : State), ∃ t fr, runCommand body s = .next t ∧
    t.trace.getLast? = some (.tx (fr ++ [13#8, 10#8])) ∧ fr.length ≤ 258 ∧
    match decodeCommand body with
    | .instr i => fr.head? = some i.opcode ∨ fr.head? = some 106#8
    | .messageError => fr.head? = some 107#8
    | .noCommand => fr.head? = some 108#8

/-- 30_encoding.md R61(b), 70_reset_and_hazards.md R161: a client that reads by the length fields cuts every
response exactly where it ends, whatever bytes its data holds and whatever follows it on TX: the response to
every body, rejected ones included, and to every instruction. -/
def Obligations.ClientCutsEveryResponseByItsFields : Prop :=
  (∀ (body : List Byte) (s t : State) (fr following : List Byte), runCommand body s = .next t →
    t.trace.getLast? = some (.tx fr) → splitResponse (fr ++ following) = some (fr, following)) ∧
  ∀ (i : Instr) (s t : State) (fr following : List Byte), exec i s = .next t →
    t.trace.getLast? = some (.tx fr) → splitResponse (fr ++ following) = some (fr, following)

/-! ### The commands -/

/-- 42_bus_transfer.md R90 with 45_response_encoder.md R121 and R126: WRITE, from every state. The optional
status of a fault is decision D15 of the spec. -/
def Obligations.WriteSendsOnceAndReportsTheStatus : Prop :=
  ∀ (addr : Byte) (data : List Byte) (s : State), ∃ t, exec (.write addr data) s = .next t ∧
    SameBlock s t ∧ t.writeAnswers = s.writeAnswers.drop 1 ∧ t.readAnswers = s.readAnswers ∧
    t.trace = s.trace ++
      [.busWrite s.cfg.freq addr data (nextWriteAnswer s),
       .tx (match nextWriteAnswer s with
        | .ok st => [100#8, addr, statusByte st, 13#8, 10#8]
        | .fault none => [106#8, 13#8, 10#8]
        | .fault (some b) => [106#8, b, 13#8, 10#8])]

/-- 42_bus_transfer.md R91 with 45_response_encoder.md R122 and R126: READ, from every state; the count byte
is the number of bytes received, at most the number requested (20_memory.md R36; decision D28 of the spec,
realised as the model's notes/assumptions/4.md says). -/
def Obligations.ReadReportsTheBytesReceived : Prop :=
  ∀ (addr count : Byte) (s : State), ∃ t answer, exec (.read addr count) s = .next t ∧
    SameBlock s t ∧ t.writeAnswers = s.writeAnswers ∧ t.readAnswers = s.readAnswers.drop 1 ∧
    answer = nextReadAnswer count s ∧
    (∀ d, answer = .ok d → d.length ≤ count.toNat) ∧
    t.trace = s.trace ++
      [.busRead s.cfg.freq addr count answer,
       .tx (match answer with
        | .ok d => [101#8, addr, BitVec.ofNat 8 d.length] ++ d ++ [13#8, 10#8]
        | .fault none => [106#8, 13#8, 10#8]
        | .fault (some b) => [106#8, b, 13#8, 10#8])]

/-- 42_bus_transfer.md R92, 20_memory.md R46: WRITEREAD, from every state: write, delay, read in this order; a
fault of the write step ends it before the delay; the status of the write step is not reported (decision
D17 of the spec). -/
def Obligations.WriteReadWritesThenWaitsThenReads : Prop :=
  ∀ (addr rcount : Byte) (wdata : List Byte) (s : State),
    ∃ t, exec (.writeRead addr wdata rcount) s = .next t ∧ SameBlock s t ∧
      t.writeAnswers = s.writeAnswers.drop 1 ∧
      (∀ st, nextWriteAnswer s = .fault st → t.readAnswers = s.readAnswers ∧
        t.trace = s.trace ++
          [.busWrite s.cfg.freq addr wdata (.fault st), .tx (encodeResponse 102#8 (.busFault st))]) ∧
      (∀ st, nextWriteAnswer s = .ok st → t.readAnswers = s.readAnswers.drop 1 ∧
        ∃ answer, answer = nextReadAnswer rcount (popWriteAnswer s) ∧
          (∀ d, answer = .ok d → d.length ≤ rcount.toNat) ∧
          t.trace = s.trace ++
            [.busWrite s.cfg.freq addr wdata (.ok st), .delay s.cfg.wrDelay,
             .busRead s.cfg.freq addr rcount answer,
             .tx (match answer with
              | .ok d => [102#8, addr, BitVec.ofNat 8 d.length] ++ d ++ [13#8, 10#8]
              | .fault none => [106#8, 13#8, 10#8]
              | .fault (some b) => [106#8, b, 13#8, 10#8])])

/-- 43_bus_management.md R100: CHECKDEVICE, from every state: one write transaction without data (the probe of
R42, decision D12 of the spec). -/
def Obligations.CheckDeviceProbesOnceAndReportsTheStatus : Prop :=
  ∀ (addr : Byte) (s : State), ∃ t, exec (.checkDevice addr) s = .next t ∧
    SameBlock s t ∧ t.writeAnswers = s.writeAnswers.drop 1 ∧ t.readAnswers = s.readAnswers ∧
    t.trace = s.trace ++
      [.busWrite s.cfg.freq addr [] (nextWriteAnswer s),
       .tx (match nextWriteAnswer s with
        | .ok st => [103#8, addr, statusByte st, 13#8, 10#8]
        | .fault none => [106#8, 13#8, 10#8]
        | .fault (some b) => [106#8, b, 13#8, 10#8])]

/-- 43_bus_management.md R101: DEVICELIST when no probe faults: addresses 1 to 126 ascending, each once, and
the list of those that answered 0. The range is decision D13 of the spec, the probe its D12. -/
def Obligations.DeviceListProbesEveryAddressAndListsTheFound : Prop :=
  ∀ s : State, (∀ k, k < 126 → ∃ st, writeAnswerAfter k s = .ok st) →
    ∃ t found, exec .deviceList s = .next t ∧ SameBlock s t ∧
      t.writeAnswers = s.writeAnswers.drop 126 ∧ t.readAnswers = s.readAnswers ∧
      found = ((List.range 126).filter fun k => decide (writeAnswerAfter k s = .ok .success)).map
        (fun k => BitVec.ofNat 8 (k + 1)) ∧
      t.trace = s.trace ++
        (List.range 126).map (fun k =>
          .busWrite s.cfg.freq (BitVec.ofNat 8 (k + 1)) [] (writeAnswerAfter k s)) ++
        [.tx ([104#8, BitVec.ofNat 8 found.length] ++ found ++ [13#8, 10#8])]

/-- 43_bus_management.md R101, 60_exceptions.md R138: DEVICELIST when probe number `n + 1` is the first that
faults: the scan stops there, the partial list is dropped, the response is ERROR (decisions D16, D15, D13 and
D12 of the spec). -/
def Obligations.DeviceListStopsAtTheFirstFault : Prop :=
  ∀ (s : State) (n : Nat) (st : Option Byte), n < 126 →
    (∀ k, k < n → ∃ ok, writeAnswerAfter k s = .ok ok) → writeAnswerAfter n s = .fault st →
    ∃ t, exec .deviceList s = .next t ∧ SameBlock s t ∧
      t.writeAnswers = s.writeAnswers.drop (n + 1) ∧ t.readAnswers = s.readAnswers ∧
      t.trace = s.trace ++
        (List.range (n + 1)).map (fun k =>
          .busWrite s.cfg.freq (BitVec.ofNat 8 (k + 1)) [] (writeAnswerAfter k s)) ++
        [.tx (encodeResponse 104#8 (.busFault st))]

/-- 43_bus_management.md R101, 45_response_encoder.md R123: the list DEVICELIST sends is strictly ascending and
within 1 to 126, and each listed address was probed by this command with status 0 (range: decision D13 of
the spec). -/
def Obligations.DeviceListIsStrictlyAscending : Prop :=
  ∀ (s t : State) (k : Byte) (found : List Byte), exec .deviceList s = .next t →
    t.trace.getLast? = some (.tx ([104#8, k] ++ found ++ [13#8, 10#8])) →
    k.toNat = found.length ∧ (found.map BitVec.toNat).Pairwise (· < ·) ∧
    ∀ a ∈ found, 1 ≤ a.toNat ∧ a.toNat ≤ 126 ∧
      Event.busWrite s.cfg.freq a [] (.ok .success) ∈ newEvents s t

/-- 43_bus_management.md R102: RESETDEVICES, from every state: its events in order, nothing else changed, the
pin left high; a body longer than the opcode is a message error (decision D6 of the spec). That the block
leaves the pin alone otherwise is its decision D21. -/
def Obligations.ResetDevicesPulsesThePinLow : Prop :=
  (∀ s : State, ∃ t, exec .resetDevices s = .next t ∧
    t = { s with trace := s.trace ++
      [.pinWrite s.cfg.resetPin .low, .delay s.cfg.resetPulse, .pinWrite s.cfg.resetPin .high,
       .delay s.cfg.resetSettle, .tx [105#8, 13#8, 10#8]] } ∧
    pinLevel s.cfg.resetPin t.trace = some .high ∧
    ∀ p, p ≠ s.cfg.resetPin → pinLevel p t.trace = pinLevel p s.trace) ∧
  decode [105#8] = .instr .resetDevices ∧
  ∀ body : List Byte, body.head? = some 105#8 → body.length ≠ 1 → decode body = .messageError

/-- 44_configuration.md R111 and R112: RESETI2CFREQ and SET400KHZ, from every state: the frequency mode, the
Ack, and nothing else (no event of its own: decision D30 of the spec); the one body of each, and the message
error of every other (its decision D6). -/
def Obligations.FrequencyCommandsSetTheMode : Prop :=
  (∀ s : State, exec .resetI2CFreq s = .next { s with
    cfg := { s.cfg with freq := .default }, trace := s.trace ++ [.tx [110#8, 13#8, 10#8]] }) ∧
  (∀ s : State, exec .set400kHz s = .next { s with
    cfg := { s.cfg with freq := .fast400k }, trace := s.trace ++ [.tx [111#8, 13#8, 10#8]] }) ∧
  decode [110#8] = .instr .resetI2CFreq ∧ decode [111#8] = .instr .set400kHz ∧
  ∀ body : List Byte, body.head? = some 110#8 ∨ body.head? = some 111#8 → body.length ≠ 1 →
    decode body = .messageError

/-- 44_configuration.md R113, R114 and R116: SETWRITEREADDELAY, SETRESETPIN and SETRESETSETTLETIME, from every
state and for every parameter byte: the one field, the Ack, and nothing else; the two-byte body of each,
which no parameter makes undeliverable, and the message error of every other body. One byte per parameter is
decision D9 of the spec, the exact length its D6. -/
def Obligations.ParameterCommandsStoreTheirByte : Prop :=
  (∀ (p : Byte) (s : State), exec (.setWriteReadDelay p) s = .next { s with
    cfg := { s.cfg with wrDelay := p }, trace := s.trace ++ [.tx [112#8, 13#8, 10#8]] }) ∧
  (∀ (p : Byte) (s : State), exec (.setResetPin p) s = .next { s with
    cfg := { s.cfg with resetPin := p }, trace := s.trace ++ [.tx [113#8, 13#8, 10#8]] }) ∧
  (∀ (p : Byte) (s : State), exec (.setResetSettleTime p) s = .next { s with
    cfg := { s.cfg with resetSettle := p }, trace := s.trace ++ [.tx [115#8, 13#8, 10#8]] }) ∧
  (∀ p : Byte, decode [112#8, p] = .instr (.setWriteReadDelay p) ∧
    decode [113#8, p] = .instr (.setResetPin p) ∧
    decode [115#8, p] = .instr (.setResetSettleTime p) ∧
    noTerminatorPair [112#8, p] = true ∧ noTerminatorPair [113#8, p] = true ∧
    noTerminatorPair [115#8, p] = true) ∧
  ∀ body : List Byte,
    body.head? = some 112#8 ∨ body.head? = some 113#8 ∨ body.head? = some 115#8 →
    body.length ≠ 2 → decode body = .messageError

/-- 44_configuration.md R115 (that "ResetTime" is the pulse is the spec's own derivation from R110):
SETRESETTIME, from every state and for every parameter byte. -/
def Obligations.SetResetTimeStoresThePulseLength : Prop :=
  ∀ (p : Byte) (s : State), exec (.setResetTime p) s = .next { s with
    cfg := { s.cfg with resetPulse := p }, trace := s.trace ++ [.tx [114#8, 13#8, 10#8]] }

/-- 44_configuration.md R117, 40_frame_reader.md R73: SETINPUTBUFFERSIZE, from every state and for every
parameter byte (none refused or clamped: decision D24 of the spec): the capacity, the reader reset, the Ack,
and nothing else; run between frames, where the command loop runs it, the reader reset changes nothing. -/
def Obligations.SetInputBufferSizeStoresCapacityAndResetsReader : Prop :=
  ∀ (p : Byte) (s : State),
    exec (.setInputBufferSize p) s = .next { s with
      cfg := { s.cfg with cap := p }
      phase := .recv
      len := 0#8
      dcr := false
      trace := s.trace ++ [.tx [116#8, 13#8, 10#8]] } ∧
    (s.phase = .recv → s.len = 0#8 → s.dcr = false →
      exec (.setInputBufferSize p) s = .next { s with
        cfg := { s.cfg with cap := p }, trace := s.trace ++ [.tx [116#8, 13#8, 10#8]] })

/-- 70_reset_and_hazards.md R158, 20_memory.md R47 (the sequence is the spec's own derivation): a client that sets
the delay, the pin and the two reset times has fixed what RESETDEVICES does and how long WRITEREAD waits,
whatever the open reset values were: each setting holds from the next command on. -/
def Obligations.SettingsHoldFromTheNextCommandOn : Prop :=
  ∀ (s : State) (ms pin pulse settle : Byte),
    ∃ t1 t2 t3 t4 t5, exec (.setWriteReadDelay ms) s = .next t1 ∧ exec (.setResetPin pin) t1 = .next t2 ∧
      exec (.setResetTime pulse) t2 = .next t3 ∧ exec (.setResetSettleTime settle) t3 = .next t4 ∧
      exec .resetDevices t4 = .next t5 ∧
      newEvents t4 t5 = [.pinWrite pin .low, .delay pulse, .pinWrite pin .high, .delay settle,
        .tx [105#8, 13#8, 10#8]] ∧
      t4.cfg.wrDelay = ms ∧ t5.cfg = t4.cfg ∧ t4.cfg.cap = s.cfg.cap ∧ t4.cfg.freq = s.cfg.freq

/-! ### Rules over all instructions -/

/-- 10_state.md R15 to R20, 44_configuration.md R110, 60_exceptions.md R143: what every instruction does to the
Configuration Store: seven write one field each, no other instruction and no exception writes any. -/
def Obligations.OnlyTheSevenCommandsWriteTheirField : Prop :=
  ∀ (i : Instr) (s t : State), exec i s = .next t →
    t.cfg = match i with
      | .resetI2CFreq => { s.cfg with freq := .default }
      | .set400kHz => { s.cfg with freq := .fast400k }
      | .setWriteReadDelay p => { s.cfg with wrDelay := p }
      | .setResetPin p => { s.cfg with resetPin := p }
      | .setResetTime p => { s.cfg with resetPulse := p }
      | .setResetSettleTime p => { s.cfg with resetSettle := p }
      | .setInputBufferSize p => { s.cfg with cap := p }
      | _ => s.cfg

/-- The frame of every instruction (the "State written" of 42_bus_transfer.md, 43_bus_management.md and
44_configuration.md; 10_state.md R12, R13; 40_frame_reader.md R72): no byte of the frame buffer, no inbound
byte and no earlier event is touched; only SETINPUTBUFFERSIZE writes `phase`, `len` and `dcr`. -/
def Obligations.ReaderAndBufferUntouchedByInstructions : Prop :=
  ∀ (i : Instr) (s t : State), exec i s = .next t →
    (∀ n, Memory.read t.buf n = Memory.read s.buf n) ∧ t.inputs = s.inputs ∧ s.trace <+: t.trace ∧
    ((∀ p, i ≠ .setInputBufferSize p) → t.phase = s.phase ∧ t.len = s.len ∧ t.dcr = s.dcr)

/-- 20_memory.md R41 (that the mode is an argument of the bus primitives is decision D30 of the spec): every bus
operation of every instruction is issued at the mode held in `cfg.freq`. -/
def Obligations.BusOperationsUseTheConfiguredMode : Prop :=
  ∀ (i : Instr) (s t : State), exec i s = .next t →
    ∀ e ∈ newEvents s t, ∀ f, Event.busMode e = some f → f = s.cfg.freq

/-- 20_memory.md R40, R44, 60_exceptions.md R148, R149: only RESETDEVICES writes a pin, only it and WRITEREAD
wait, only the five bus commands touch the bus. -/
def Obligations.EventsOnlyOfTheCommandsThatListThem : Prop :=
  ∀ (i : Instr) (s t : State), exec i s = .next t →
    ∀ e ∈ newEvents s t,
      (Event.isPinWrite e = true → i = .resetDevices) ∧
      (Event.isDelay e = true → i = .resetDevices ∨ ∃ a w n, i = .writeRead a w n) ∧
      (Event.isBusRead e = true → (∃ a n, i = .read a n) ∨ ∃ a w n, i = .writeRead a w n) ∧
      (Event.isBusWrite e = true → (∃ a d, i = .write a d) ∨ (∃ a w n, i = .writeRead a w n) ∨
        (∃ a, i = .checkDevice a) ∨ i = .deviceList) ∧
      e ≠ .overflow

/-- 20_memory.md R36: no answer to a read is longer than the count requested (decision D28 of the spec; how the
model's environment meets it is notes/assumptions/4.md). -/
def Obligations.NoReadAnswerExceedsTheRequest : Prop :=
  ∀ (i : Instr) (s t : State), exec i s = .next t →
    ∀ f a n r, Event.busRead f a n (.ok r) ∈ newEvents s t → r.length ≤ n.toNat

/-- 60_exceptions.md R138, R140, R142, 45_response_encoder.md R126: a bus fault is the last event before the
response and makes it the ERROR frame; without a fault a command's response echoes its opcode. The optional
status is decision D15 of the spec. -/
def Obligations.BusFaultEndsTheCommandWithError : Prop :=
  ∀ (i : Instr) (s t : State), exec i s = .next t →
    ∃ es fr, newEvents s t = es ++ [.tx fr] ∧
      (∀ e ∈ es.dropLast, Event.faultStatus e = none) ∧
      match es.getLast?.bind Event.faultStatus with
      | some none => fr = [106#8, 13#8, 10#8]
      | some (some b) => fr = [106#8, b, 13#8, 10#8]
      | none => i.isCommand = true → fr.head? = some i.opcode

/-- 60_exceptions.md R139: a non-zero status is not an exception: WRITE and CHECKDEVICE put the code in their
response, without a retry, DEVICELIST goes on without the address, WRITEREAD drops the code and goes on
(decision D17 of the spec; the probe is its D12). -/
def Obligations.NonZeroStatusIsNotAnException : Prop :=
  ∀ (s : State) (st : BusStatus), st ≠ .success → nextWriteAnswer s = .ok st →
    (∀ addr data, ∃ t, exec (.write addr data) s = .next t ∧
      t.trace = s.trace ++ [.busWrite s.cfg.freq addr data (.ok st),
        .tx [100#8, addr, statusByte st, 13#8, 10#8]]) ∧
    (∀ addr, ∃ t, exec (.checkDevice addr) s = .next t ∧
      t.trace = s.trace ++ [.busWrite s.cfg.freq addr [] (.ok st),
        .tx [103#8, addr, statusByte st, 13#8, 10#8]]) ∧
    (∀ a as found, scan (a :: as) found s =
      scan as found { popWriteAnswer s with
        trace := s.trace ++ [.busWrite s.cfg.freq a [] (.ok st)] }) ∧
    (∀ addr wdata rcount d, nextReadAnswer rcount (popWriteAnswer s) = .ok d →
      ∃ t, exec (.writeRead addr wdata rcount) s = .next t ∧
        t.trace = s.trace ++ [.busWrite s.cfg.freq addr wdata (.ok st), .delay s.cfg.wrDelay,
          .busRead s.cfg.freq addr rcount (.ok d),
          .tx ([102#8, addr, BitVec.ofNat 8 d.length] ++ d ++ [13#8, 10#8])])
end

