-- ==== Sys2Proof/Laws/State.lean ====
section
/-!
SUPPORT. One lemma per field of State and named update: what the update leaves in that field. Later
proofs cite these (they are in the simp set) and unfold no record update.
-/

namespace Sys2Proof.Machine

/-! ### record -/

@[simp] theorem record_phase (e : Event) (s : State) : (record e s).phase = s.phase := rfl
@[simp] theorem record_buf (e : Event) (s : State) : (record e s).buf = s.buf := rfl
@[simp] theorem record_len (e : Event) (s : State) : (record e s).len = s.len := rfl
@[simp] theorem record_dcr (e : Event) (s : State) : (record e s).dcr = s.dcr := rfl
@[simp] theorem record_cfg (e : Event) (s : State) : (record e s).cfg = s.cfg := rfl
@[simp] theorem record_inputs (e : Event) (s : State) : (record e s).inputs = s.inputs := rfl
@[simp] theorem record_writeAnswers (e : Event) (s : State) :
    (record e s).writeAnswers = s.writeAnswers := rfl
@[simp] theorem record_readAnswers (e : Event) (s : State) :
    (record e s).readAnswers = s.readAnswers := rfl
@[simp] theorem record_freeIndex (e : Event) (s : State) :
    (record e s).freeIndex = s.freeIndex := rfl
@[simp] theorem record_trace (e : Event) (s : State) : (record e s).trace = s.trace ++ [e] := rfl

/-! ### transmit -/

@[simp] theorem transmit_phase (bs : List Byte) (s : State) : (transmit bs s).phase = s.phase := rfl
@[simp] theorem transmit_buf (bs : List Byte) (s : State) : (transmit bs s).buf = s.buf := rfl
@[simp] theorem transmit_len (bs : List Byte) (s : State) : (transmit bs s).len = s.len := rfl
@[simp] theorem transmit_dcr (bs : List Byte) (s : State) : (transmit bs s).dcr = s.dcr := rfl
@[simp] theorem transmit_cfg (bs : List Byte) (s : State) : (transmit bs s).cfg = s.cfg := rfl
@[simp] theorem transmit_inputs (bs : List Byte) (s : State) :
    (transmit bs s).inputs = s.inputs := rfl
@[simp] theorem transmit_writeAnswers (bs : List Byte) (s : State) :
    (transmit bs s).writeAnswers = s.writeAnswers := rfl
@[simp] theorem transmit_readAnswers (bs : List Byte) (s : State) :
    (transmit bs s).readAnswers = s.readAnswers := rfl
@[simp] theorem transmit_freeIndex (bs : List Byte) (s : State) :
    (transmit bs s).freeIndex = s.freeIndex := rfl
@[simp] theorem transmit_trace (bs : List Byte) (s : State) :
    (transmit bs s).trace = s.trace ++ [.tx bs] := rfl

/-! ### delay -/

@[simp] theorem delay_phase (ms : Byte) (s : State) : (delay ms s).phase = s.phase := rfl
@[simp] theorem delay_buf (ms : Byte) (s : State) : (delay ms s).buf = s.buf := rfl
@[simp] theorem delay_len (ms : Byte) (s : State) : (delay ms s).len = s.len := rfl
@[simp] theorem delay_dcr (ms : Byte) (s : State) : (delay ms s).dcr = s.dcr := rfl
@[simp] theorem delay_cfg (ms : Byte) (s : State) : (delay ms s).cfg = s.cfg := rfl
@[simp] theorem delay_inputs (ms : Byte) (s : State) : (delay ms s).inputs = s.inputs := rfl
@[simp] theorem delay_writeAnswers (ms : Byte) (s : State) :
    (delay ms s).writeAnswers = s.writeAnswers := rfl
@[simp] theorem delay_readAnswers (ms : Byte) (s : State) :
    (delay ms s).readAnswers = s.readAnswers := rfl
@[simp] theorem delay_freeIndex (ms : Byte) (s : State) :
    (delay ms s).freeIndex = s.freeIndex := rfl
@[simp] theorem delay_trace (ms : Byte) (s : State) :
    (delay ms s).trace = s.trace ++ [.delay ms] := rfl

/-! ### pinWrite -/

@[simp] theorem pinWrite_phase (p : Byte) (v : Level) (s : State) :
    (pinWrite p v s).phase = s.phase := rfl
@[simp] theorem pinWrite_buf (p : Byte) (v : Level) (s : State) :
    (pinWrite p v s).buf = s.buf := rfl
@[simp] theorem pinWrite_len (p : Byte) (v : Level) (s : State) :
    (pinWrite p v s).len = s.len := rfl
@[simp] theorem pinWrite_dcr (p : Byte) (v : Level) (s : State) :
    (pinWrite p v s).dcr = s.dcr := rfl
@[simp] theorem pinWrite_cfg (p : Byte) (v : Level) (s : State) :
    (pinWrite p v s).cfg = s.cfg := rfl
@[simp] theorem pinWrite_inputs (p : Byte) (v : Level) (s : State) :
    (pinWrite p v s).inputs = s.inputs := rfl
@[simp] theorem pinWrite_writeAnswers (p : Byte) (v : Level) (s : State) :
    (pinWrite p v s).writeAnswers = s.writeAnswers := rfl
@[simp] theorem pinWrite_readAnswers (p : Byte) (v : Level) (s : State) :
    (pinWrite p v s).readAnswers = s.readAnswers := rfl
@[simp] theorem pinWrite_freeIndex (p : Byte) (v : Level) (s : State) :
    (pinWrite p v s).freeIndex = s.freeIndex := rfl
@[simp] theorem pinWrite_trace (p : Byte) (v : Level) (s : State) :
    (pinWrite p v s).trace = s.trace ++ [.pinWrite p v] := rfl

/-! ### popWriteAnswer -/

@[simp] theorem popWriteAnswer_phase (s : State) :
    (popWriteAnswer s).phase = s.phase := by
  unfold popWriteAnswer; split <;> simp_all
@[simp] theorem popWriteAnswer_buf (s : State) :
    (popWriteAnswer s).buf = s.buf := by
  unfold popWriteAnswer; split <;> simp_all
@[simp] theorem popWriteAnswer_len (s : State) :
    (popWriteAnswer s).len = s.len := by
  unfold popWriteAnswer; split <;> simp_all
@[simp] theorem popWriteAnswer_dcr (s : State) :
    (popWriteAnswer s).dcr = s.dcr := by
  unfold popWriteAnswer; split <;> simp_all
@[simp] theorem popWriteAnswer_cfg (s : State) :
    (popWriteAnswer s).cfg = s.cfg := by
  unfold popWriteAnswer; split <;> simp_all
@[simp] theorem popWriteAnswer_inputs (s : State) :
    (popWriteAnswer s).inputs = s.inputs := by
  unfold popWriteAnswer; split <;> simp_all
@[simp] theorem popWriteAnswer_writeAnswers (s : State) :
    (popWriteAnswer s).writeAnswers = s.writeAnswers.drop 1 := by
  unfold popWriteAnswer; split <;> simp_all
@[simp] theorem popWriteAnswer_readAnswers (s : State) :
    (popWriteAnswer s).readAnswers = s.readAnswers := by
  unfold popWriteAnswer; split <;> simp_all
@[simp] theorem popWriteAnswer_trace (s : State) :
    (popWriteAnswer s).trace = s.trace := by
  unfold popWriteAnswer; split <;> simp_all

/-! ### popReadAnswer -/

@[simp] theorem popReadAnswer_phase (s : State) :
    (popReadAnswer s).phase = s.phase := by
  unfold popReadAnswer; split <;> simp_all
@[simp] theorem popReadAnswer_buf (s : State) :
    (popReadAnswer s).buf = s.buf := by
  unfold popReadAnswer; split <;> simp_all
@[simp] theorem popReadAnswer_len (s : State) :
    (popReadAnswer s).len = s.len := by
  unfold popReadAnswer; split <;> simp_all
@[simp] theorem popReadAnswer_dcr (s : State) :
    (popReadAnswer s).dcr = s.dcr := by
  unfold popReadAnswer; split <;> simp_all
@[simp] theorem popReadAnswer_cfg (s : State) :
    (popReadAnswer s).cfg = s.cfg := by
  unfold popReadAnswer; split <;> simp_all
@[simp] theorem popReadAnswer_inputs (s : State) :
    (popReadAnswer s).inputs = s.inputs := by
  unfold popReadAnswer; split <;> simp_all
@[simp] theorem popReadAnswer_writeAnswers (s : State) :
    (popReadAnswer s).writeAnswers = s.writeAnswers := by
  unfold popReadAnswer; split <;> simp_all
@[simp] theorem popReadAnswer_readAnswers (s : State) :
    (popReadAnswer s).readAnswers = s.readAnswers.drop 1 := by
  unfold popReadAnswer; split <;> simp_all
@[simp] theorem popReadAnswer_trace (s : State) :
    (popReadAnswer s).trace = s.trace := by
  unfold popReadAnswer; split <;> simp_all

/-! ### withInputs -/

@[simp] theorem withInputs_phase (rest : List Input) (s : State) :
    (withInputs rest s).phase = s.phase := rfl
@[simp] theorem withInputs_buf (rest : List Input) (s : State) :
    (withInputs rest s).buf = s.buf := rfl
@[simp] theorem withInputs_len (rest : List Input) (s : State) :
    (withInputs rest s).len = s.len := rfl
@[simp] theorem withInputs_dcr (rest : List Input) (s : State) :
    (withInputs rest s).dcr = s.dcr := rfl
@[simp] theorem withInputs_cfg (rest : List Input) (s : State) :
    (withInputs rest s).cfg = s.cfg := rfl
@[simp] theorem withInputs_inputs (rest : List Input) (s : State) :
    (withInputs rest s).inputs = rest := rfl
@[simp] theorem withInputs_writeAnswers (rest : List Input) (s : State) :
    (withInputs rest s).writeAnswers = s.writeAnswers := rfl
@[simp] theorem withInputs_readAnswers (rest : List Input) (s : State) :
    (withInputs rest s).readAnswers = s.readAnswers := rfl
@[simp] theorem withInputs_freeIndex (rest : List Input) (s : State) :
    (withInputs rest s).freeIndex = s.freeIndex := rfl
@[simp] theorem withInputs_trace (rest : List Input) (s : State) :
    (withInputs rest s).trace = s.trace := rfl

/-! ### setCfg -/

@[simp] theorem setCfg_phase (c : Cfg) (s : State) : (setCfg c s).phase = s.phase := rfl
@[simp] theorem setCfg_buf (c : Cfg) (s : State) : (setCfg c s).buf = s.buf := rfl
@[simp] theorem setCfg_len (c : Cfg) (s : State) : (setCfg c s).len = s.len := rfl
@[simp] theorem setCfg_dcr (c : Cfg) (s : State) : (setCfg c s).dcr = s.dcr := rfl
@[simp] theorem setCfg_cfg (c : Cfg) (s : State) : (setCfg c s).cfg = c := rfl
@[simp] theorem setCfg_inputs (c : Cfg) (s : State) : (setCfg c s).inputs = s.inputs := rfl
@[simp] theorem setCfg_writeAnswers (c : Cfg) (s : State) :
    (setCfg c s).writeAnswers = s.writeAnswers := rfl
@[simp] theorem setCfg_readAnswers (c : Cfg) (s : State) :
    (setCfg c s).readAnswers = s.readAnswers := rfl
@[simp] theorem setCfg_freeIndex (c : Cfg) (s : State) : (setCfg c s).freeIndex = s.freeIndex := rfl
@[simp] theorem setCfg_trace (c : Cfg) (s : State) : (setCfg c s).trace = s.trace := rfl

/-! ### readerReset -/

@[simp] theorem readerReset_phase (s : State) : (readerReset s).phase = .recv := rfl
@[simp] theorem readerReset_buf (s : State) : (readerReset s).buf = s.buf := rfl
@[simp] theorem readerReset_len (s : State) : (readerReset s).len = 0#8 := rfl
@[simp] theorem readerReset_dcr (s : State) : (readerReset s).dcr = false := rfl
@[simp] theorem readerReset_cfg (s : State) : (readerReset s).cfg = s.cfg := rfl
@[simp] theorem readerReset_inputs (s : State) : (readerReset s).inputs = s.inputs := rfl
@[simp] theorem readerReset_writeAnswers (s : State) :
    (readerReset s).writeAnswers = s.writeAnswers := rfl
@[simp] theorem readerReset_readAnswers (s : State) :
    (readerReset s).readAnswers = s.readAnswers := rfl
@[simp] theorem readerReset_freeIndex (s : State) : (readerReset s).freeIndex = s.freeIndex := rfl
@[simp] theorem readerReset_trace (s : State) : (readerReset s).trace = s.trace := rfl

/-! ### emptied -/

@[simp] theorem emptied_phase (s : State) : (emptied s).phase = s.phase := rfl
@[simp] theorem emptied_buf (s : State) : (emptied s).buf = s.buf := rfl
@[simp] theorem emptied_len (s : State) : (emptied s).len = 0#8 := rfl
@[simp] theorem emptied_dcr (s : State) : (emptied s).dcr = s.dcr := rfl
@[simp] theorem emptied_cfg (s : State) : (emptied s).cfg = s.cfg := rfl
@[simp] theorem emptied_inputs (s : State) : (emptied s).inputs = s.inputs := rfl
@[simp] theorem emptied_writeAnswers (s : State) : (emptied s).writeAnswers = s.writeAnswers := rfl
@[simp] theorem emptied_readAnswers (s : State) : (emptied s).readAnswers = s.readAnswers := rfl
@[simp] theorem emptied_freeIndex (s : State) : (emptied s).freeIndex = s.freeIndex := rfl
@[simp] theorem emptied_trace (s : State) : (emptied s).trace = s.trace := rfl

/-! ### appendByte -/

@[simp] theorem appendByte_phase (b : Byte) (s : State) : (appendByte b s).phase = s.phase := rfl
@[simp] theorem appendByte_buf (b : Byte) (s : State) :
    (appendByte b s).buf = Memory.write s.buf s.len.toNat b := rfl
@[simp] theorem appendByte_len (b : Byte) (s : State) : (appendByte b s).len = s.len + 1#8 := rfl
@[simp] theorem appendByte_dcr (b : Byte) (s : State) : (appendByte b s).dcr = s.dcr := rfl
@[simp] theorem appendByte_cfg (b : Byte) (s : State) : (appendByte b s).cfg = s.cfg := rfl
@[simp] theorem appendByte_inputs (b : Byte) (s : State) : (appendByte b s).inputs = s.inputs := rfl
@[simp] theorem appendByte_writeAnswers (b : Byte) (s : State) :
    (appendByte b s).writeAnswers = s.writeAnswers := rfl
@[simp] theorem appendByte_readAnswers (b : Byte) (s : State) :
    (appendByte b s).readAnswers = s.readAnswers := rfl
@[simp] theorem appendByte_freeIndex (b : Byte) (s : State) :
    (appendByte b s).freeIndex = s.freeIndex := rfl
@[simp] theorem appendByte_trace (b : Byte) (s : State) : (appendByte b s).trace = s.trace := rfl

/-! ### discardByte -/

@[simp] theorem discardByte_buf (b : Byte) (s : State) :
    (discardByte b s).buf = s.buf := by
  unfold discardByte; split <;> rfl
@[simp] theorem discardByte_len (b : Byte) (s : State) :
    (discardByte b s).len = s.len := by
  unfold discardByte; split <;> rfl
@[simp] theorem discardByte_cfg (b : Byte) (s : State) :
    (discardByte b s).cfg = s.cfg := by
  unfold discardByte; split <;> rfl
@[simp] theorem discardByte_inputs (b : Byte) (s : State) :
    (discardByte b s).inputs = s.inputs := by
  unfold discardByte; split <;> rfl
@[simp] theorem discardByte_writeAnswers (b : Byte) (s : State) :
    (discardByte b s).writeAnswers = s.writeAnswers := by
  unfold discardByte; split <;> rfl
@[simp] theorem discardByte_readAnswers (b : Byte) (s : State) :
    (discardByte b s).readAnswers = s.readAnswers := by
  unfold discardByte; split <;> rfl
@[simp] theorem discardByte_freeIndex (b : Byte) (s : State) :
    (discardByte b s).freeIndex = s.freeIndex := by
  unfold discardByte; split <;> rfl
@[simp] theorem discardByte_trace (b : Byte) (s : State) :
    (discardByte b s).trace = s.trace := by
  unfold discardByte; split <;> rfl

/-! ### takeOverflow -/

@[simp] theorem takeOverflow_phase (b : Byte) (s : State) :
    (takeException (.overflow b) s).phase = .discard := rfl
@[simp] theorem takeOverflow_buf (b : Byte) (s : State) :
    (takeException (.overflow b) s).buf = s.buf := rfl
@[simp] theorem takeOverflow_len (b : Byte) (s : State) :
    (takeException (.overflow b) s).len = 0#8 := rfl
@[simp] theorem takeOverflow_dcr (b : Byte) (s : State) :
    (takeException (.overflow b) s).dcr = crFlag b := rfl
@[simp] theorem takeOverflow_cfg (b : Byte) (s : State) :
    (takeException (.overflow b) s).cfg = s.cfg := rfl
@[simp] theorem takeOverflow_inputs (b : Byte) (s : State) :
    (takeException (.overflow b) s).inputs = s.inputs := rfl
@[simp] theorem takeOverflow_writeAnswers (b : Byte) (s : State) :
    (takeException (.overflow b) s).writeAnswers = s.writeAnswers := rfl
@[simp] theorem takeOverflow_readAnswers (b : Byte) (s : State) :
    (takeException (.overflow b) s).readAnswers = s.readAnswers := rfl
@[simp] theorem takeOverflow_freeIndex (b : Byte) (s : State) :
    (takeException (.overflow b) s).freeIndex = s.freeIndex := rfl
@[simp] theorem takeOverflow_trace (b : Byte) (s : State) :
    (takeException (.overflow b) s).trace = s.trace ++ [.overflow] := rfl

/-! ### applyReset -/

@[simp] theorem applyReset_phase (s : State) : (applyReset s).phase = .recv := rfl
@[simp] theorem applyReset_buf (s : State) : (applyReset s).buf = [] := rfl
@[simp] theorem applyReset_len (s : State) : (applyReset s).len = 0#8 := rfl
@[simp] theorem applyReset_dcr (s : State) : (applyReset s).dcr = false := rfl
@[simp] theorem applyReset_cfg (s : State) : (applyReset s).cfg = Cfg.reset := rfl
@[simp] theorem applyReset_inputs (s : State) : (applyReset s).inputs = s.inputs := rfl
@[simp] theorem applyReset_writeAnswers (s : State) :
    (applyReset s).writeAnswers = s.writeAnswers := rfl
@[simp] theorem applyReset_readAnswers (s : State) :
    (applyReset s).readAnswers = s.readAnswers := rfl
@[simp] theorem applyReset_freeIndex (s : State) : (applyReset s).freeIndex = s.freeIndex := rfl
@[simp] theorem applyReset_trace (s : State) : (applyReset s).trace = s.trace := rfl

/-! ### The other classes of takeException -/

@[simp] theorem takeMessageError_eq (s : State) :
    takeException .messageError s = transmit messageErrorFrame s := rfl
@[simp] theorem takeNoCommand_eq (s : State) :
    takeException .noCommand s = transmit noCommandFrame s := rfl
@[simp] theorem takeBusFault_eq (st : Option Byte) (s : State) :
    takeException (.busFault st) s = transmit (errorFrame st) s := rfl

/-! ### The two flag computations -/

@[simp] theorem crFlag_eq (b : Byte) : crFlag b = decide (b = 13#8) := rfl

theorem discardByte_ends (s : State) (b : Byte) (h : s.dcr = true ∧ b = LF) :
    discardByte b s = { s with phase := .recv, dcr := false } := if_pos h

theorem discardByte_goes_on (s : State) (b : Byte) (h : ¬ (s.dcr = true ∧ b = LF)) :
    discardByte b s = { s with dcr := crFlag b } := if_neg h

end Sys2Proof.Machine
end

