-- ==== Sys2Proof/Laws/Decode.lean ====
section
/-!
SUPPORT. Small laws of the decoder: reading a body by offset, and what the two decoders have to do with
each other.
-/

namespace Sys2Proof

@[simp] theorem byteAt_zero (b : Byte) (bs : List Byte) : byteAt (b :: bs) 0 = b := rfl

@[simp] theorem byteAt_succ (b : Byte) (bs : List Byte) (n : Nat) :
    byteAt (b :: bs) (n + 1) = byteAt bs n := rfl

@[simp] theorem byteAt_one (b c : Byte) (bs : List Byte) : byteAt (b :: c :: bs) 1 = c := rfl

@[simp] theorem byteAt_two (b c d : Byte) (bs : List Byte) : byteAt (b :: c :: d :: bs) 2 = d := rfl

/-- The byte right after a prefix. -/
theorem byteAt_append (xs : List Byte) (b : Byte) (ys : List Byte) :
    byteAt (xs ++ b :: ys) xs.length = b := by
  simp [byteAt, List.getD_eq_getElem?_getD]

/-- The field of a body that follows three fixed bytes. -/
theorem slice_three (a b c : Byte) (data surplus : List Byte) :
    slice (a :: b :: c :: (data ++ surplus)) 3 data.length = data := by
  simp [slice]

/-- A count field that holds the length of at most 255 bytes reads back as that length. -/
theorem count_toNat {data : List Byte} (h : data.length ≤ 255) :
    (BitVec.ofNat 8 data.length).toNat = data.length := by
  rw [BitVec.toNat_ofNat]
  exact Nat.mod_eq_of_lt (by omega)

theorem exactly_of_length {n : Nat} {body : List Byte} {i : Instr} (h : body.length = n) :
    exactly n body i = .instr i := if_pos h

theorem exactly_of_length_ne {n : Nat} {body : List Byte} {i : Instr} (h : body.length ≠ n) :
    exactly n body i = .messageError := if_neg h

/-- A body's outcome in an exact format. -/
theorem exactly_cases (n : Nat) (body : List Byte) (i : Instr) :
    (body.length = n ∧ exactly n body i = .instr i) ∨
      (body.length ≠ n ∧ exactly n body i = .messageError) := by
  by_cases h : body.length = n
  · exact .inl ⟨h, if_pos h⟩
  · exact .inr ⟨h, if_neg h⟩

/-- The outcome of format ACD. -/
theorem decodeACD_cases (body : List Byte) :
    ((body.length < 3 ∨ body.length - 3 < (byteAt body 2).toNat) ∧ decodeACD body = .messageError) ∨
    (3 + (byteAt body 2).toNat ≤ body.length ∧
      decodeACD body = .instr (.write (byteAt body 1) (slice body 3 (byteAt body 2).toNat))) := by
  unfold decodeACD
  split
  · exact .inl ⟨.inl ‹_›, rfl⟩
  · split
    · exact .inl ⟨.inr ‹_›, rfl⟩
    · exact .inr ⟨by omega, rfl⟩

/-- The outcome of format WR. -/
theorem decodeWR_cases (body : List Byte) :
    ((body.length < 5 ∨ body.length < 5 + (byteAt body 2).toNat ∨
        byteAt body (3 + (byteAt body 2).toNat) ≠ marker) ∧ decodeWR body = .messageError) ∨
    (5 + (byteAt body 2).toNat ≤ body.length ∧
      byteAt body (3 + (byteAt body 2).toNat) = marker ∧
      decodeWR body = .instr (.writeRead (byteAt body 1) (slice body 3 (byteAt body 2).toNat)
        (byteAt body (4 + (byteAt body 2).toNat)))) := by
  unfold decodeWR
  split
  · exact .inl ⟨.inl ‹_›, rfl⟩
  · split
    · exact .inl ⟨.inr (.inl ‹_›), rfl⟩
    · split
      · exact .inl ⟨.inr (.inr ‹_›), rfl⟩
      · rename_i h
        exact .inr ⟨by omega, by simpa using h, rfl⟩

/-- The decoder over all rows is R81's, but for a first byte of 106 to 109. -/
theorem decode_eq_decodeCommand {body : List Byte}
    (h : (byteAt body 0).toNat ∉ [106, 107, 108, 109]) : decode body = decodeCommand body := by
  simp only [List.mem_cons, List.not_mem_nil, or_false, not_or] at h
  unfold decode
  by_cases h0 : body.length = 0
  · rw [if_pos h0, decodeCommand, if_pos h0]
  · rw [if_neg h0]
    split <;> first | rfl | (exfalso; omega)

end Sys2Proof
end

