-- ==== Sys2Proof/Laws/Memory.lean ====
section
/-!
SUPPORT. The laws of the frame buffer: a read after a write, the canonical form, and the bytes of a frame
in progress.
-/

namespace Sys2Proof.Machine

theorem Memory.wfFrom_mono {m : Memory} {lo lo' : Nat} (h : Memory.wfFrom lo m = true) (hl : lo' ≤ lo) :
    Memory.wfFrom lo' m = true := by
  cases m with
  | nil => rfl
  | cons c m =>
    obtain ⟨k, v⟩ := c
    simp only [Memory.wfFrom, Bool.and_eq_true, decide_eq_true_eq] at h ⊢
    exact ⟨⟨⟨by omega, h.1.1.2⟩, h.1.2⟩, h.2⟩

/-- Below its lowest listed offset a buffer reads as unlisted. -/
theorem Memory.read_below {m : Memory} {lo n : Nat} (h : Memory.wfFrom lo m = true) (hn : n < lo) :
    Memory.read m n = Memory.unlisted := by
  induction m generalizing lo with
  | nil => rfl
  | cons c m ih =>
    obtain ⟨k, v⟩ := c
    simp only [Memory.wfFrom, Bool.and_eq_true, decide_eq_true_eq] at h
    have hk : k ≠ n := by omega
    simp only [Memory.read, if_neg hk]
    exact ih h.2 (by omega)

theorem Memory.read_writeFrom {m : Memory} {lo n : Nat} (v : Byte) (h : Memory.wfFrom lo m = true)
    (k : Nat) : Memory.read (Memory.write m n v) k = if k = n then v else Memory.read m k := by
  induction m generalizing lo with
  | nil =>
    by_cases hk : k = n
    · subst hk
      by_cases hv : v = Memory.unlisted <;> simp [Memory.write, Memory.read, hv]
    · have hk' : n ≠ k := fun e => hk e.symm
      by_cases hv : v = Memory.unlisted <;> simp [Memory.write, Memory.read, hv, hk, hk']
  | cons c m ih =>
    obtain ⟨j, w⟩ := c
    simp only [Memory.wfFrom, Bool.and_eq_true, decide_eq_true_eq] at h
    have hrest := h.2
    simp only [Memory.write]
    by_cases h1 : n < j
    · rw [if_pos h1]
      by_cases hv : v = Memory.unlisted
      · rw [if_pos hv]
        by_cases hk : k = n
        · subst hk
          have hj : j ≠ k := by omega
          simp [Memory.read, hj, Memory.read_below hrest (show k < j + 1 by omega), hv]
        · simp [hk]
      · rw [if_neg hv]
        by_cases hk : k = n
        · simp [Memory.read, hk]
        · have hk' : n ≠ k := fun e => hk e.symm
          simp [Memory.read, hk, hk']
    · rw [if_neg h1]
      by_cases h2 : n = j
      · subst h2
        rw [if_pos rfl]
        by_cases hv : v = Memory.unlisted
        · rw [if_pos hv]
          by_cases hk : k = n
          · subst hk
            simp [Memory.read_below hrest (show k < k + 1 by omega), hv]
          · have : n ≠ k := fun e => hk e.symm
            simp [hk, Memory.read, this]
        · rw [if_neg hv]
          by_cases hk : k = n
          · simp [Memory.read, hk]
          · have : n ≠ k := fun e => hk e.symm
            simp [hk, Memory.read, this]
      · rw [if_neg h2]
        simp only [Memory.read]
        by_cases hj : j = k
        · have hkn : k ≠ n := by omega
          simp [hj, hkn]
        · simp only [if_neg hj]
          exact ih hrest

/-- A read after a write: the byte written, or what was there before. -/
theorem Memory.read_write {m : Memory} (h : Memory.wf m = true) (n k : Nat) (v : Byte) :
    Memory.read (Memory.write m n v) k = if k = n then v else Memory.read m k :=
  Memory.read_writeFrom v h k

theorem Memory.wfFrom_write {m : Memory} {lo n : Nat} (v : Byte) (h : Memory.wfFrom lo m = true)
    (hlo : lo ≤ n) (hn : n < Config.bufMax) : Memory.wfFrom lo (Memory.write m n v) = true := by
  induction m generalizing lo with
  | nil =>
    by_cases hv : v = Memory.unlisted <;> simp [Memory.write, Memory.wfFrom, hv, hlo, hn]
  | cons c m ih =>
    obtain ⟨j, w⟩ := c
    have h' := h
    simp only [Memory.wfFrom, Bool.and_eq_true, decide_eq_true_eq] at h'
    obtain ⟨⟨⟨hj, hjm⟩, hw⟩, hrest⟩ := h'
    simp only [Memory.write]
    by_cases h1 : n < j
    · rw [if_pos h1]
      by_cases hv : v = Memory.unlisted
      · rw [if_pos hv]; exact h
      · rw [if_neg hv]
        simp only [Memory.wfFrom, Bool.and_eq_true, decide_eq_true_eq]
        exact ⟨⟨⟨hlo, hn⟩, by simpa using hv⟩, ⟨⟨⟨by omega, hjm⟩, hw⟩, hrest⟩⟩
    · rw [if_neg h1]
      by_cases h2 : n = j
      · rw [if_pos h2]
        by_cases hv : v = Memory.unlisted
        · rw [if_pos hv]; exact Memory.wfFrom_mono hrest (by omega)
        · rw [if_neg hv]
          simp only [Memory.wfFrom, Bool.and_eq_true, decide_eq_true_eq]
          exact ⟨⟨⟨hlo, hn⟩, by simpa using hv⟩, h2 ▸ hrest⟩
      · rw [if_neg h2]
        simp only [Memory.wfFrom, Bool.and_eq_true, decide_eq_true_eq]
        exact ⟨⟨⟨hj, hjm⟩, hw⟩, ih hrest (by omega)⟩

/-- A write to one of the 255 cells keeps the canonical form. -/
theorem Memory.wf_write {m : Memory} (h : Memory.wf m = true) {n : Nat} (hn : n < Config.bufMax)
    (v : Byte) : Memory.wf (Memory.write m n v) = true :=
  Memory.wfFrom_write v h (Nat.zero_le n) hn

/-- A write of consecutive cells among the 255 keeps the canonical form. -/
theorem Memory.wf_writeAll {m : Memory} (h : Memory.wf m = true) (bs : List Byte) {n : Nat}
    (hn : n + bs.length ≤ Config.bufMax) : Memory.wf (Memory.writeAll m n bs) = true := by
  induction bs generalizing m n with
  | nil => exact h
  | cons b bs ih =>
    simp only [List.length_cons] at hn
    exact ih (Memory.wf_write h (by omega) b) (by omega)

/-- A read after a write of consecutive cells. -/
theorem Memory.read_writeAll {m : Memory} (h : Memory.wf m = true) (bs : List Byte) {n : Nat}
    (hn : n + bs.length ≤ Config.bufMax) (k : Nat) :
    Memory.read (Memory.writeAll m n bs) k =
      if n ≤ k ∧ k < n + bs.length then bs.getD (k - n) 0#8 else Memory.read m k := by
  induction bs generalizing m n with
  | nil => simp only [Memory.writeAll, List.length_nil]; rw [if_neg (by omega)]
  | cons b bs ih =>
    simp only [List.length_cons] at hn
    simp only [Memory.writeAll, List.length_cons]
    rw [ih (Memory.wf_write h (by omega) b) (by omega), Memory.read_write h]
    by_cases h1 : k = n
    · subst h1
      rw [if_neg (by omega), if_pos rfl, if_pos (by omega)]
      simp
    · by_cases h2 : n + 1 ≤ k ∧ k < n + 1 + bs.length
      · rw [if_pos h2, if_pos (by omega)]
        have : k - n = (k - (n + 1)) + 1 := by omega
        rw [this, List.getD_cons_succ]
      · rw [if_neg h2, if_neg h1, if_neg (by omega)]

/-! ### The first bytes of the buffer -/

@[simp] theorem Memory.firstBytes_length (m : Memory) (n : Nat) :
    (Memory.firstBytes m n).length = n := by simp [Memory.firstBytes]

@[simp] theorem Memory.firstBytes_zero (m : Memory) : Memory.firstBytes m 0 = [] := rfl

theorem Memory.firstBytes_succ (m : Memory) (n : Nat) :
    Memory.firstBytes m (n + 1) = Memory.firstBytes m n ++ [Memory.read m n] := by
  simp [Memory.firstBytes, List.range_succ]

/-- The first bytes are determined by the cells below. -/
theorem Memory.firstBytes_congr {m m' : Memory} {n : Nat}
    (h : ∀ k, k < n → Memory.read m' k = Memory.read m k) :
    Memory.firstBytes m' n = Memory.firstBytes m n := by
  unfold Memory.firstBytes
  exact List.map_congr_left fun k hk => h k (List.mem_range.mp hk)

/-- A write at or beyond `n` leaves the first `n` bytes alone. -/
theorem Memory.firstBytes_write {m : Memory} (h : Memory.wf m = true) {n k : Nat} (hk : n ≤ k)
    (v : Byte) : Memory.firstBytes (Memory.write m k v) n = Memory.firstBytes m n :=
  Memory.firstBytes_congr fun j hj => by rw [Memory.read_write h]; rw [if_neg (by omega)]

/-- Appending a byte to the frame in progress. -/
theorem Memory.firstBytes_append {m : Memory} (h : Memory.wf m = true) (n : Nat) (v : Byte) :
    Memory.firstBytes (Memory.write m n v) (n + 1) = Memory.firstBytes m n ++ [v] := by
  rw [Memory.firstBytes_succ, Memory.firstBytes_write h (Nat.le_refl n), Memory.read_write h]
  simp

end Sys2Proof.Machine
end

