-- ==== Sys2Proof/Laws/Execute.lean ====
section
/-!
SUPPORT. What executing an instruction can do, said once for all seventeen: it writes its `cfg` field, it
records the events its rule lists, a bus fault is the last of them, and its response closes the trace.
-/

namespace Sys2Proof.Machine

/-! ### The environment's answers -/

theorem ReadAnswer.upTo_length {n : Byte} {a : ReadAnswer} {r : List Byte}
    (h : ReadAnswer.upTo n a = .ok r) : r.length ≤ n.toNat := by
  cases a with
  | ok x => simp only [ReadAnswer.upTo, ReadAnswer.ok.injEq] at h; subst h; simp
  | fault st => simp [ReadAnswer.upTo] at h

theorem nextReadAnswer_length {n : Byte} {s : State} {r : List Byte}
    (h : nextReadAnswer n s = .ok r) : r.length ≤ n.toNat := ReadAnswer.upTo_length h

/-- The frequency mode is not involved in the choice of an answer, nor is the trace. -/
theorem nextWriteAnswer_congr {s t : State} (h1 : t.writeAnswers = s.writeAnswers)
    (h2 : t.freeIndex = s.freeIndex) : nextWriteAnswer t = nextWriteAnswer s := by
  simp [nextWriteAnswer, h1, h2]

theorem nextReadAnswer_congr {s t : State} (n : Byte) (h1 : t.readAnswers = s.readAnswers)
    (h2 : t.freeIndex = s.freeIndex) : nextReadAnswer n t = nextReadAnswer n s := by
  simp [nextReadAnswer, nextReadOffer, h1, h2]

/-! ### How a state grows while events are recorded -/

/-- `t` is `s` after the events `es`: only the trace and the environment's answers have moved. -/
structure Grown (s t : State) (es : List Event) : Prop where
  phase : t.phase = s.phase
  buf : t.buf = s.buf
  len : t.len = s.len
  dcr : t.dcr = s.dcr
  cfg : t.cfg = s.cfg
  inputs : t.inputs = s.inputs
  trace : t.trace = s.trace ++ es
  writeAnswers : t.writeAnswers = s.writeAnswers.drop (es.countP Event.isBusWrite)
  readAnswers : t.readAnswers = s.readAnswers.drop (es.countP Event.isBusRead)

theorem Grown.refl (s : State) : Grown s s [] := by constructor <;> simp

theorem Grown.trans {s t u : State} {es fs : List Event} (h1 : Grown s t es) (h2 : Grown t u fs) :
    Grown s u (es ++ fs) where
  phase := h2.phase.trans h1.phase
  buf := h2.buf.trans h1.buf
  len := h2.len.trans h1.len
  dcr := h2.dcr.trans h1.dcr
  cfg := h2.cfg.trans h1.cfg
  inputs := h2.inputs.trans h1.inputs
  trace := by rw [h2.trace, h1.trace, List.append_assoc]
  writeAnswers := by rw [h2.writeAnswers, h1.writeAnswers, List.drop_drop, List.countP_append]
  readAnswers := by rw [h2.readAnswers, h1.readAnswers, List.drop_drop, List.countP_append]

theorem Grown.cons {s t u : State} {e : Event} {es : List Event} (h1 : Grown s t [e])
    (h2 : Grown t u es) : Grown s u (e :: es) := h1.trans h2

theorem grown_transmit (bs : List Byte) (s : State) : Grown s (transmit bs s) [.tx bs] := by
  constructor <;> simp [Event.isBusWrite, Event.isBusRead]

theorem grown_delay (ms : Byte) (s : State) : Grown s (delay ms s) [.delay ms] := by
  constructor <;> simp [Event.isBusWrite, Event.isBusRead]

theorem grown_pinWrite (p : Byte) (v : Level) (s : State) : Grown s (pinWrite p v s) [.pinWrite p v] := by
  constructor <;> simp [Event.isBusWrite, Event.isBusRead]

theorem grown_busWrite (a : Byte) (d : List Byte) (s : State) :
    Grown s (busWrite a d s).2 [.busWrite s.cfg.freq a d (nextWriteAnswer s)] := by
  constructor <;> simp [busWrite, Event.isBusWrite, Event.isBusRead]

theorem grown_busRead (a n : Byte) (s : State) :
    Grown s (busRead a n s).2 [.busRead s.cfg.freq a n (nextReadAnswer n s)] := by
  constructor <;> simp [busRead, Event.isBusWrite, Event.isBusRead]

theorem Grown.newEvents {s t : State} {es : List Event} (h : Grown s t es) :
    newEvents s t = es := by simp [Machine.newEvents, h.trace]

theorem Grown.sameBlock {s t : State} {es : List Event} (h : Grown s t es) : SameBlock s t :=
  ⟨h.phase, h.len, h.dcr, h.cfg, h.inputs, fun n => by rw [h.buf]⟩

/-! ### Which events an instruction records, and how they end -/

/-- The events the rule of `i` lists, run from a state whose configuration is `c`. -/
structure Listed (i : Instr) (c : Cfg) (e : Event) : Prop where
  notTx : e.isTx = false
  notOverflow : e ≠ .overflow
  mode : ∀ f, e.busMode = some f → f = c.freq
  pin : e.isPinWrite = true → i = .resetDevices
  delay : e.isDelay = true → i = .resetDevices ∨ ∃ a w n, i = .writeRead a w n
  read : e.isBusRead = true → (∃ a n, i = .read a n) ∨ ∃ a w n, i = .writeRead a w n
  write : e.isBusWrite = true → (∃ a d, i = .write a d) ∨ (∃ a w n, i = .writeRead a w n) ∨
    (∃ a, i = .checkDevice a) ∨ i = .deviceList
  answer : ∀ f a n r, e = .busRead f a n (.ok r) → r.length ≤ n.toNat

/-- A fault is the last event of a command, and then its result; without one the result is another. -/
def Ends (es : List Event) (r : Result) : Prop :=
  ((∀ e ∈ es, e.faultStatus = none) ∧ ∀ st, r ≠ .busFault st) ∨
  ∃ pre e st, es = pre ++ [e] ∧ (∀ e ∈ pre, e.faultStatus = none) ∧
    e.faultStatus = some st ∧ r = .busFault st

theorem Ends.cons {e : Event} {es : List Event} {r : Result} (he : e.faultStatus = none)
    (h : Ends es r) : Ends (e :: es) r := by
  rcases h with ⟨h1, h2⟩ | ⟨pre, e', st, rfl, h1, h2, h3⟩
  · exact .inl ⟨by simpa [he] using h1, h2⟩
  · exact .inr ⟨e :: pre, e', st, rfl, by simpa [he] using h1, h2, h3⟩

theorem Ends.fault {e : Event} {st : Option Byte} (he : e.faultStatus = some st) :
    Ends [e] (.busFault st) := .inr ⟨[], e, st, rfl, by simp, he, rfl⟩

theorem Ends.nil {r : Result} (h : ∀ st, r ≠ .busFault st) : Ends [] r := .inl ⟨by simp, h⟩

/-- The results an instruction may have when no bus operation faults (R120). -/
def Answers : Instr → Result → Prop
  | .write a _, r => ∃ st, r = .statusCode a st
  | .read a n, r => ∃ d, r = .readPayload a d ∧ d.length ≤ n.toNat
  | .writeRead a _ n, r => ∃ d, r = .readPayload a d ∧ d.length ≤ n.toNat
  | .checkDevice a, r => ∃ st, r = .statusCode a st
  | .deviceList, r => ∃ found, r = .deviceList found ∧ List.Sublist found scanAddresses
  | .error, _ => False
  | .messageError, _ => False
  | .noCommand, _ => False
  | .info, _ => False
  | .resetDevices, r => r = .ack
  | .resetI2CFreq, r => r = .ack
  | .set400kHz, r => r = .ack
  | .setWriteReadDelay _, r => r = .ack
  | .setResetPin _, r => r = .ack
  | .setResetTime _, r => r = .ack
  | .setResetSettleTime _, r => r = .ack
  | .setInputBufferSize _, r => r = .ack

/-- The state with what `i` writes of the block written ("State written" of R90 to R117). -/
def written : Instr → State → State
  | .write _ _, s => s
  | .read _ _, s => s
  | .writeRead _ _ _, s => s
  | .checkDevice _, s => s
  | .deviceList, s => s
  | .resetDevices, s => s
  | .error, s => s
  | .messageError, s => s
  | .noCommand, s => s
  | .info, s => s
  | .resetI2CFreq, s => setCfg { s.cfg with freq := .default } s
  | .set400kHz, s => setCfg { s.cfg with freq := .fast400k } s
  | .setWriteReadDelay p, s => setCfg { s.cfg with wrDelay := p } s
  | .setResetPin p, s => setCfg { s.cfg with resetPin := p } s
  | .setResetTime p, s => setCfg { s.cfg with resetPulse := p } s
  | .setResetSettleTime p, s => setCfg { s.cfg with resetSettle := p } s
  | .setInputBufferSize p, s => readerReset (setCfg { s.cfg with cap := p } s)

/-- `respond` is `Tx(encode(op, res))` for every result (R86). -/
theorem respond_eq (op : Byte) (r : Result × State) :
    respond op r = transmit (encodeResponse op r.1) r.2 := by
  obtain ⟨r, s⟩ := r
  cases r <;> rfl

/-- What a run of an `execute` function gives. -/
structure Executed (i : Instr) (s : State) (x : Result × State) : Prop where
  run : ∃ es, Grown s x.2 es ∧ (∀ e ∈ es, Listed i s.cfg e) ∧ Ends es x.1
  result : Answers i x.1 ∨ ∃ st, x.1 = .busFault st

theorem listed_busWrite {i : Instr} {c : Cfg} {a : Byte} {d : List Byte} {r : WriteAnswer}
    (h : (∃ a d, i = .write a d) ∨ (∃ a w n, i = .writeRead a w n) ∨ (∃ a, i = .checkDevice a) ∨
      i = .deviceList) : Listed i c (.busWrite c.freq a d r) where
  notTx := rfl
  notOverflow := by simp
  mode := by simp [Event.busMode, eq_comm]
  pin := by simp [Event.isPinWrite]
  delay := by simp [Event.isDelay]
  read := by simp [Event.isBusRead]
  write := fun _ => h
  answer := by simp

theorem listed_busRead {i : Instr} {c : Cfg} {a n : Byte} {s : State}
    (h : (∃ a n, i = .read a n) ∨ ∃ a w n, i = .writeRead a w n) :
    Listed i c (.busRead c.freq a n (nextReadAnswer n s)) where
  notTx := rfl
  notOverflow := by simp
  mode := by simp [Event.busMode, eq_comm]
  pin := by simp [Event.isPinWrite]
  delay := by simp [Event.isDelay]
  read := fun _ => h
  write := by simp [Event.isBusWrite]
  answer := by
    intro f a' n' r he
    simp only [Event.busRead.injEq] at he
    obtain ⟨-, -, rfl, he⟩ := he
    exact nextReadAnswer_length he

theorem listed_delay {i : Instr} {c : Cfg} {ms : Byte}
    (h : i = .resetDevices ∨ ∃ a w n, i = .writeRead a w n) : Listed i c (.delay ms) := by
  constructor <;> simp [Event.isTx, Event.busMode, Event.isPinWrite, Event.isBusRead, Event.isBusWrite, h]

theorem listed_pinWrite {c : Cfg} {p : Byte} {v : Level} : Listed .resetDevices c (.pinWrite p v) := by
  constructor <;> simp [Event.isTx, Event.busMode, Event.isDelay, Event.isBusRead, Event.isBusWrite]

theorem faultStatus_busWrite (f : FreqMode) (a : Byte) (d : List Byte) (st : Option Byte) :
    Event.faultStatus (.busWrite f a d (.fault st)) = some st := rfl

theorem faultStatus_busRead (f : FreqMode) (a n : Byte) (st : Option Byte) :
    Event.faultStatus (.busRead f a n (.fault st)) = some st := rfl

theorem executed_write (addr : Byte) (data : List Byte) (s : State) :
    Executed (.write addr data) s (executeWrite addr data s) := by
  have hg := grown_busWrite addr data s
  have hl : Listed (.write addr data) s.cfg (.busWrite s.cfg.freq addr data (nextWriteAnswer s)) :=
    listed_busWrite (.inl ⟨_, _, rfl⟩)
  cases h : nextWriteAnswer s with
  | ok st =>
    have hx : executeWrite addr data s = (.statusCode addr st, (busWrite addr data s).2) := by
      simp [executeWrite, busWrite, h]
    rw [hx]
    rw [h] at hg hl
    exact ⟨⟨_, hg, by simpa using hl, .inl ⟨by simp [Event.faultStatus], by simp⟩⟩, .inl ⟨st, rfl⟩⟩
  | fault st =>
    have hx : executeWrite addr data s = (.busFault st, (busWrite addr data s).2) := by
      simp [executeWrite, busWrite, h]
    rw [hx]
    rw [h] at hg hl
    exact ⟨⟨_, hg, by simpa using hl, Ends.fault rfl⟩, .inr ⟨st, rfl⟩⟩

theorem executed_checkDevice (addr : Byte) (s : State) :
    Executed (.checkDevice addr) s (executeCheckDevice addr s) := by
  have hg := grown_busWrite addr [] s
  have hl : Listed (.checkDevice addr) s.cfg (.busWrite s.cfg.freq addr [] (nextWriteAnswer s)) :=
    listed_busWrite (.inr (.inr (.inl ⟨_, rfl⟩)))
  cases h : nextWriteAnswer s with
  | ok st =>
    have hx : executeCheckDevice addr s = (.statusCode addr st, (busWrite addr [] s).2) := by
      simp [executeCheckDevice, probe, busWrite, h]
    rw [hx]
    rw [h] at hg hl
    exact ⟨⟨_, hg, by simpa using hl, .inl ⟨by simp [Event.faultStatus], by simp⟩⟩, .inl ⟨st, rfl⟩⟩
  | fault st =>
    have hx : executeCheckDevice addr s = (.busFault st, (busWrite addr [] s).2) := by
      simp [executeCheckDevice, probe, busWrite, h]
    rw [hx]
    rw [h] at hg hl
    exact ⟨⟨_, hg, by simpa using hl, Ends.fault rfl⟩, .inr ⟨st, rfl⟩⟩

theorem executed_read (addr count : Byte) (s : State) :
    Executed (.read addr count) s (executeRead addr count s) := by
  have hg := grown_busRead addr count s
  have hl : Listed (.read addr count) s.cfg (.busRead s.cfg.freq addr count (nextReadAnswer count s)) :=
    listed_busRead (.inl ⟨_, _, rfl⟩)
  cases h : nextReadAnswer count s with
  | ok d =>
    have hx : executeRead addr count s = (.readPayload addr d, (busRead addr count s).2) := by
      simp [executeRead, busRead, h]
    rw [hx]
    rw [h] at hg hl
    exact ⟨⟨_, hg, by simpa using hl, .inl ⟨by simp [Event.faultStatus], by simp⟩⟩,
      .inl ⟨d, rfl, nextReadAnswer_length h⟩⟩
  | fault st =>
    have hx : executeRead addr count s = (.busFault st, (busRead addr count s).2) := by
      simp [executeRead, busRead, h]
    rw [hx]
    rw [h] at hg hl
    exact ⟨⟨_, hg, by simpa using hl, Ends.fault rfl⟩, .inr ⟨st, rfl⟩⟩

theorem executed_writeRead (addr : Byte) (wdata : List Byte) (rcount : Byte) (s : State) :
    Executed (.writeRead addr wdata rcount) s (executeWriteRead addr wdata rcount s) := by
  have hg := grown_busWrite addr wdata s
  have hl : Listed (.writeRead addr wdata rcount) s.cfg
      (.busWrite s.cfg.freq addr wdata (nextWriteAnswer s)) :=
    listed_busWrite (.inr (.inl ⟨_, _, _, rfl⟩))
  cases h : nextWriteAnswer s with
  | fault st =>
    have hx : executeWriteRead addr wdata rcount s = (.busFault st, (busWrite addr wdata s).2) := by
      simp [executeWriteRead, busWrite, h]
    rw [hx]
    rw [h] at hg hl
    exact ⟨⟨_, hg, by simpa using hl, Ends.fault rfl⟩, .inr ⟨st, rfl⟩⟩
  | ok st =>
    rw [h] at hg hl
    have hd := grown_delay s.cfg.wrDelay (busWrite addr wdata s).2
    have hld : Listed (.writeRead addr wdata rcount) s.cfg (.delay s.cfg.wrDelay) :=
      listed_delay (.inr ⟨_, _, _, rfl⟩)
    have hr := grown_busRead addr rcount (delay s.cfg.wrDelay (busWrite addr wdata s).2)
    have hfreq : (delay s.cfg.wrDelay (busWrite addr wdata s).2).cfg = s.cfg := by simp [busWrite]
    have hlr : Listed (.writeRead addr wdata rcount) s.cfg (.busRead s.cfg.freq addr rcount
        (nextReadAnswer rcount (delay s.cfg.wrDelay (busWrite addr wdata s).2))) :=
      listed_busRead (.inr ⟨_, _, _, rfl⟩)
    rw [hfreq] at hr
    cases hr2 : nextReadAnswer rcount (delay s.cfg.wrDelay (busWrite addr wdata s).2) with
    | ok d =>
      have hx : executeWriteRead addr wdata rcount s = (.readPayload addr d,
          (busRead addr rcount (delay s.cfg.wrDelay (busWrite addr wdata s).2)).2) := by
        simp only [executeWriteRead, busWrite, h, busRead, record_cfg, popWriteAnswer_cfg]
        simp only [busWrite, h] at hr2
        rw [hr2]
      rw [hx]
      rw [hr2] at hr hlr
      refine ⟨⟨_, hg.cons (hd.cons hr), ?_, ?_⟩, .inl ⟨d, rfl, nextReadAnswer_length hr2⟩⟩
      · simpa using ⟨hl, hld, hlr⟩
      · exact .inl ⟨by simp [Event.faultStatus], by simp⟩
    | fault st' =>
      have hx : executeWriteRead addr wdata rcount s = (.busFault st',
          (busRead addr rcount (delay s.cfg.wrDelay (busWrite addr wdata s).2)).2) := by
        simp only [executeWriteRead, busWrite, h, busRead, record_cfg, popWriteAnswer_cfg]
        simp only [busWrite, h] at hr2
        rw [hr2]
      rw [hx]
      rw [hr2] at hr hlr
      refine ⟨⟨_, hg.cons (hd.cons hr), ?_, ?_⟩, .inr ⟨st', rfl⟩⟩
      · simpa using ⟨hl, hld, hlr⟩
      · exact Ends.cons rfl (Ends.cons rfl (Ends.fault rfl))

/-! ### The scan of DEVICELIST -/

/-- One turn of the loop: a status goes on, with the address collected when the status is 0. -/
theorem scan_ok {a : Byte} {as found : List Byte} {s : State} {st : BusStatus}
    (h : nextWriteAnswer s = .ok st) :
    scan (a :: as) found s =
      scan as (if st = .success then found ++ [a] else found) (busWrite a [] s).2 := by
  cases st <;> simp [scan, probe, busWrite, h]

/-- One turn of the loop: a fault abandons the scan. -/
theorem scan_fault {a : Byte} {as found : List Byte} {s : State} {st : Option Byte}
    (h : nextWriteAnswer s = .fault st) :
    scan (a :: as) found s = (.busFault st, (busWrite a [] s).2) := by
  simp [scan, probe, busWrite, h]

theorem executed_scan (as found : List Byte) (s : State) :
    (∃ es, Grown s (scan as found s).2 es ∧ (∀ e ∈ es, Listed .deviceList s.cfg e) ∧
      Ends es (scan as found s).1) ∧
    ((∃ more, (scan as found s).1 = .deviceList (found ++ more) ∧ List.Sublist more as) ∨
      ∃ st, (scan as found s).1 = .busFault st) := by
  induction as generalizing found s with
  | nil =>
    exact ⟨⟨[], Grown.refl s, by simp, Ends.nil (by simp [scan])⟩,
      .inl ⟨[], by simp [scan], List.Sublist.refl []⟩⟩
  | cons a as ih =>
    have hg := grown_busWrite a [] s
    have hl : Listed .deviceList s.cfg (.busWrite s.cfg.freq a [] (nextWriteAnswer s)) :=
      listed_busWrite (.inr (.inr (.inr rfl)))
    cases h : nextWriteAnswer s with
    | fault st =>
      rw [scan_fault h]
      rw [h] at hg hl
      exact ⟨⟨_, hg, by simpa using hl, Ends.fault rfl⟩, .inr ⟨st, rfl⟩⟩
    | ok st =>
      rw [scan_ok h]
      rw [h] at hg hl
      obtain ⟨⟨es, hes, hall, hend⟩, hres⟩ :=
        ih (if st = .success then found ++ [a] else found) (busWrite a [] s).2
      have hc : (busWrite a [] s).2.cfg = s.cfg := hg.cfg
      rw [hc] at hall
      refine ⟨⟨_, hg.cons hes, ?_, Ends.cons rfl hend⟩, ?_⟩
      · intro e he
        rcases List.mem_cons.mp he with rfl | he
        · exact hl
        · exact hall e he
      · rcases hres with ⟨more, hm, hsub⟩ | hf
        · left
          by_cases hst : st = .success
          · rw [if_pos hst] at hm ⊢
            exact ⟨a :: more, by rw [hm, List.append_assoc]; rfl, hsub.cons_cons a⟩
          · rw [if_neg hst] at hm ⊢
            exact ⟨more, hm, hsub.cons a⟩
        · exact .inr hf

theorem executed_deviceList (s : State) : Executed .deviceList s (executeDeviceList s) := by
  obtain ⟨h1, h2⟩ := executed_scan scanAddresses [] s
  refine ⟨h1, ?_⟩
  rcases h2 with ⟨more, hm, hsub⟩ | hf
  · exact .inl ⟨more, hm.trans (by simp), hsub⟩
  · exact .inr hf

theorem executed_resetDevices (s : State) : Executed .resetDevices s (executeResetDevices s) := by
  refine ⟨⟨[.pinWrite s.cfg.resetPin .low, .delay s.cfg.resetPulse, .pinWrite s.cfg.resetPin .high,
    .delay s.cfg.resetSettle], ?_, ?_, .inl ⟨?_, ?_⟩⟩, .inl rfl⟩
  · exact (grown_pinWrite _ _ _).cons ((grown_delay _ _).cons
      ((grown_pinWrite _ _ _).cons (grown_delay _ _)))
  · simpa using ⟨listed_pinWrite, listed_delay (.inl rfl), listed_pinWrite, listed_delay (.inl rfl)⟩
  · simp [Event.faultStatus]
  · simp [executeResetDevices]

/-! ### All instructions -/

/-- What `exec` does, for every instruction: the block is written (`written`), events `es` of the
instruction's rule are recorded, and the response `fr` closes them. -/
structure ExecShape (i : Instr) (s t : State) (es : List Event) (fr : List Byte) : Prop where
  grown : Grown (written i s) t (es ++ [.tx fr])
  listed : ∀ e ∈ es, Listed i s.cfg e
  response :
    (i.isCommand = true ∧ ∃ r, Ends es r ∧ fr = encodeResponse i.opcode r ∧
      (Answers i r ∨ ∃ st, r = .busFault st)) ∨
    (i.isCommand = false ∧ es = [] ∧ fr = noCommandFrame)

theorem execShape_of_executed {i : Instr} {s : State} {x : Result × State} (hc : i.isCommand = true)
    (hw : written i s = s) (h : Executed i s x) :
    ∃ es fr, ExecShape i s (respond i.opcode x) es fr := by
  obtain ⟨⟨es, hg, hl, he⟩, hr⟩ := h
  refine ⟨es, encodeResponse i.opcode x.1, ⟨?_, hl, .inl ⟨hc, x.1, he, rfl, hr⟩⟩⟩
  rw [hw, respond_eq]
  exact hg.trans (grown_transmit _ _)

theorem execShape_of_ack {i : Instr} {s : State} (hc : i.isCommand = true) (ha : Answers i .ack) :
    ExecShape i s (respond i.opcode (.ack, written i s)) [] (encodeResponse i.opcode .ack) := by
  refine ⟨?_, by simp, .inl ⟨hc, .ack, Ends.nil (by simp), rfl, .inl ha⟩⟩
  rw [respond_eq]
  exact grown_transmit _ _

theorem execShape_of_noCommand {i : Instr} {s : State} (hc : i.isCommand = false)
    (hw : written i s = s) : ExecShape i s (takeException .noCommand s) [] noCommandFrame :=
  ⟨by rw [hw]; exact grown_transmit _ _, by simp, .inr ⟨hc, rfl, rfl⟩⟩

/-- The inversion lemma of `exec`: every instruction answers a next state, of this shape. -/
theorem exec_shape (i : Instr) (s : State) :
    ∃ t es fr, exec i s = .next t ∧ ExecShape i s t es fr := by
  cases i with
  | write addr data =>
    obtain ⟨es, fr, h⟩ := execShape_of_executed (s := s) rfl rfl (executed_write addr data s)
    exact ⟨_, es, fr, rfl, h⟩
  | read addr count =>
    obtain ⟨es, fr, h⟩ := execShape_of_executed (s := s) rfl rfl (executed_read addr count s)
    exact ⟨_, es, fr, rfl, h⟩
  | writeRead addr wdata rcount =>
    obtain ⟨es, fr, h⟩ := execShape_of_executed (s := s) rfl rfl (executed_writeRead addr wdata rcount s)
    exact ⟨_, es, fr, rfl, h⟩
  | checkDevice addr =>
    obtain ⟨es, fr, h⟩ := execShape_of_executed (s := s) rfl rfl (executed_checkDevice addr s)
    exact ⟨_, es, fr, rfl, h⟩
  | deviceList =>
    obtain ⟨es, fr, h⟩ := execShape_of_executed (s := s) rfl rfl (executed_deviceList s)
    exact ⟨_, es, fr, rfl, h⟩
  | resetDevices =>
    obtain ⟨es, fr, h⟩ := execShape_of_executed (s := s) rfl rfl (executed_resetDevices s)
    exact ⟨_, es, fr, rfl, h⟩
  | error => exact ⟨_, _, _, rfl, execShape_of_noCommand rfl rfl⟩
  | messageError => exact ⟨_, _, _, rfl, execShape_of_noCommand rfl rfl⟩
  | noCommand => exact ⟨_, _, _, rfl, execShape_of_noCommand rfl rfl⟩
  | info => exact ⟨_, _, _, rfl, execShape_of_noCommand rfl rfl⟩
  | resetI2CFreq => exact ⟨_, _, _, rfl, execShape_of_ack rfl rfl⟩
  | set400kHz => exact ⟨_, _, _, rfl, execShape_of_ack rfl rfl⟩
  | setWriteReadDelay p => exact ⟨_, _, _, rfl, execShape_of_ack rfl rfl⟩
  | setResetPin p => exact ⟨_, _, _, rfl, execShape_of_ack rfl rfl⟩
  | setResetTime p => exact ⟨_, _, _, rfl, execShape_of_ack rfl rfl⟩
  | setResetSettleTime p => exact ⟨_, _, _, rfl, execShape_of_ack rfl rfl⟩
  | setInputBufferSize p => exact ⟨_, _, _, rfl, execShape_of_ack rfl rfl⟩

/-- The same from a given next state. -/
theorem exec_shape_of_next {i : Instr} {s t : State} (h : exec i s = .next t) :
    ∃ es fr, ExecShape i s t es fr := by
  obtain ⟨t', es, fr, h', hs⟩ := exec_shape i s
  rw [h] at h'
  cases h'
  exact ⟨es, fr, hs⟩

end Sys2Proof.Machine
end

