-- ==== Sys2Proof/Laws/PerInstr.lean ====
section
/-!
SUPPORT. Facts of every instruction as syntax, one lemma per constructor.
-/

namespace Sys2Proof.Laws.OpcodeFirst

/-- The canonical body begins with the opcode of R51 and nothing before it (R50). -/
def Statement (i : Instr) : Prop :=
  (encode i).head? = some i.opcode ∧ 100 ≤ i.opcode.toNat ∧ i.opcode.toNat ≤ 116

theorem write (addr : Byte) (data : List Byte) : Statement (.write addr data) := ⟨rfl, by simp [Instr.opcode]⟩
theorem read (addr count : Byte) : Statement (.read addr count) := ⟨rfl, by simp [Instr.opcode]⟩
theorem writeRead (addr : Byte) (wdata : List Byte) (rcount : Byte) :
    Statement (.writeRead addr wdata rcount) := ⟨rfl, by simp [Instr.opcode]⟩
theorem checkDevice (addr : Byte) : Statement (.checkDevice addr) := ⟨rfl, by simp [Instr.opcode]⟩
theorem deviceList : Statement .deviceList := ⟨rfl, by simp [Instr.opcode]⟩
theorem resetDevices : Statement .resetDevices := ⟨rfl, by simp [Instr.opcode]⟩
theorem error : Statement .error := ⟨rfl, by simp [Instr.opcode]⟩
theorem messageError : Statement .messageError := ⟨rfl, by simp [Instr.opcode]⟩
theorem noCommand : Statement .noCommand := ⟨rfl, by simp [Instr.opcode]⟩
theorem info : Statement .info := ⟨rfl, by simp [Instr.opcode]⟩
theorem resetI2CFreq : Statement .resetI2CFreq := ⟨rfl, by simp [Instr.opcode]⟩
theorem set400kHz : Statement .set400kHz := ⟨rfl, by simp [Instr.opcode]⟩
theorem setWriteReadDelay (p : Byte) : Statement (.setWriteReadDelay p) := ⟨rfl, by simp [Instr.opcode]⟩
theorem setResetPin (p : Byte) : Statement (.setResetPin p) := ⟨rfl, by simp [Instr.opcode]⟩
theorem setResetTime (p : Byte) : Statement (.setResetTime p) := ⟨rfl, by simp [Instr.opcode]⟩
theorem setResetSettleTime (p : Byte) : Statement (.setResetSettleTime p) := ⟨rfl, by simp [Instr.opcode]⟩
theorem setInputBufferSize (p : Byte) : Statement (.setInputBufferSize p) := ⟨rfl, by simp [Instr.opcode]⟩

end Sys2Proof.Laws.OpcodeFirst
end

