-- ==== Sys2Proof/Laws/Reader.lean ====
section
/-!
SUPPORT. What the reader and the command loop can do: which arm takes a byte, what each arm leaves, and
that every frame is answered.
-/

namespace Sys2Proof.Machine

theorem endsInCR_iff (s : State) :
    endsInCR s = true ↔ 1 ≤ s.len.toNat ∧ Memory.read s.buf (s.len.toNat - 1) = 13#8 := by
  simp [endsInCR]

/-- The condition of the complete arm (R66). -/
theorem readerArm_complete_iff (b : Byte) (s : State) :
    readerArm b s = .complete ↔
      s.phase = .recv ∧ (1 ≤ s.len.toNat ∧ Memory.read s.buf (s.len.toNat - 1) = 13#8) ∧ b = 10#8 := by
  rw [← endsInCR_iff]
  unfold readerArm
  cases s.phase with
  | discard => simp
  | recv =>
    by_cases h : endsInCR s = true ∧ b = LF
    · simp [h.1, h.2]
    · rw [if_neg h]
      constructor
      · intro he
        by_cases hc : s.cfg.cap.toNat ≤ s.len.toNat <;> simp [hc] at he
      · rintro ⟨-, h1, h2⟩; exact absurd ⟨h1, h2⟩ h

theorem readerArm_overflow {b : Byte} {s : State} (hp : s.phase = .recv)
    (hn : ¬ (endsInCR s = true ∧ b = LF)) (hc : s.cfg.cap.toNat ≤ s.len.toNat) :
    readerArm b s = .overflow := by simp [readerArm, hp, hn, hc]

theorem readerArm_append {b : Byte} {s : State} (hp : s.phase = .recv)
    (hn : ¬ (endsInCR s = true ∧ b = LF)) (hc : s.len.toNat < s.cfg.cap.toNat) :
    readerArm b s = .append := by
  have : ¬ s.cfg.cap.toNat ≤ s.len.toNat := by omega
  simp [readerArm, hp, hn, this]

theorem readerArm_discard {b : Byte} {s : State} (hp : s.phase = .discard) :
    readerArm b s = .discard := by simp [readerArm, hp]

/-- The inversion of the arms: each with its condition (R65 to R69). -/
theorem readerArm_cases (b : Byte) (s : State) :
    (readerArm b s = .complete ∧ s.phase = .recv ∧ endsInCR s = true ∧ b = LF) ∨
    (readerArm b s = .overflow ∧ s.phase = .recv ∧ ¬ (endsInCR s = true ∧ b = LF) ∧
      s.cfg.cap.toNat ≤ s.len.toNat) ∨
    (readerArm b s = .append ∧ s.phase = .recv ∧ ¬ (endsInCR s = true ∧ b = LF) ∧
      s.len.toNat < s.cfg.cap.toNat) ∨
    (readerArm b s = .discard ∧ s.phase = .discard) := by
  cases hp : s.phase with
  | discard => exact .inr (.inr (.inr ⟨readerArm_discard hp, rfl⟩))
  | recv =>
    by_cases h : endsInCR s = true ∧ b = LF
    · exact .inl ⟨by simp [readerArm, hp, h.1, h.2], rfl, h.1, h.2⟩
    · by_cases hc : s.cfg.cap.toNat ≤ s.len.toNat
      · exact .inr (.inl ⟨readerArm_overflow hp h hc, rfl, h, hc⟩)
      · exact .inr (.inr (.inl ⟨readerArm_append hp h (by omega), rfl, h, by omega⟩))

theorem feed_complete {b : Byte} {s : State} (h : readerArm b s = .complete) :
    feed b s = runCommand (frameBody s) (emptied s) := by simp [feed, h]

theorem feed_overflow {b : Byte} {s : State} (h : readerArm b s = .overflow) :
    feed b s = .next (takeException (.overflow b) s) := by simp [feed, h]

theorem feed_append {b : Byte} {s : State} (h : readerArm b s = .append) :
    feed b s = .next (appendByte b s) := by simp [feed, h]

theorem feed_discard {b : Byte} {s : State} (h : readerArm b s = .discard) :
    feed b s = .next (discardByte b s) := by simp [feed, h]

theorem runCommand_instr {body : List Byte} {s : State} {i : Instr} (h : decode body = .instr i) :
    runCommand body s = exec i s := by simp [runCommand, h]

theorem runCommand_messageError {body : List Byte} {s : State} (h : decode body = .messageError) :
    runCommand body s = .next (transmit messageErrorFrame s) := by simp [runCommand, h]

theorem runCommand_noCommand {body : List Byte} {s : State} (h : decode body = .noCommand) :
    runCommand body s = .next (transmit noCommandFrame s) := by simp [runCommand, h]

/-- What running a completed frame can do: an instruction, or one of the decoder's two exceptions. -/
theorem runCommand_cases (body : List Byte) (s : State) :
    (∃ i, decode body = .instr i ∧ runCommand body s = exec i s) ∨
    ∃ fr, (fr = messageErrorFrame ∨ fr = noCommandFrame) ∧
      runCommand body s = .next (transmit fr s) := by
  cases h : decode body with
  | instr i => exact .inl ⟨i, rfl, runCommand_instr h⟩
  | messageError => exact .inr ⟨_, .inl rfl, runCommand_messageError h⟩
  | noCommand => exact .inr ⟨_, .inr rfl, runCommand_noCommand h⟩

/-- Every frame is answered: events without a `Tx` among them, then the response. -/
theorem runCommand_answers (body : List Byte) (s : State) :
    ∃ t es fr, runCommand body s = .next t ∧ t.trace = s.trace ++ (es ++ [.tx fr]) ∧
      (∀ e ∈ es, Event.isTx e = false) ∧ t.inputs = s.inputs ∧ t.buf = s.buf ∧
      (s.phase = .recv → s.len = 0#8 → s.dcr = false →
        t.phase = .recv ∧ t.len = 0#8 ∧ t.dcr = false) ∧
      t.writeAnswers = s.writeAnswers.drop ((es ++ [Event.tx fr]).countP Event.isBusWrite) ∧
      t.readAnswers = s.readAnswers.drop ((es ++ [Event.tx fr]).countP Event.isBusRead) := by
  rcases runCommand_cases body s with ⟨i, -, hr⟩ | ⟨fr, -, hr⟩
  · obtain ⟨t, es, fr, ht, hs⟩ := exec_shape i s
    have hg := hs.grown
    refine ⟨t, es, fr, hr.trans ht, ?_, fun e he => (hs.listed e he).notTx, ?_, ?_, ?_, ?_, ?_⟩
    · rw [hg.trace]; cases i <;> simp [written]
    · rw [hg.inputs]; cases i <;> simp [written]
    · rw [hg.buf]; cases i <;> simp [written]
    · intro hp hl hd
      rw [hg.phase, hg.len, hg.dcr]
      cases i <;> simp [written, hp, hl, hd]
    · rw [hg.writeAnswers]; cases i <;> simp [written]
    · rw [hg.readAnswers]; cases i <;> simp [written]
  · exact ⟨_, [], fr, hr, by simp, by simp, by simp, by simp,
      fun hp hl hd => ⟨hp, hl, hd⟩, by simp [Event.isBusWrite], by simp [Event.isBusRead]⟩

/-! ### Accepting an input -/

theorem step_rx {s : State} {b : Byte} {rest : List Input} (h : s.inputs = .rx b :: rest) :
    step s = feed b (withInputs rest s) := by simp [step, acceptInput, h]

theorem step_reset {s : State} {rest : List Input} (h : s.inputs = .reset :: rest) :
    step s = .next (applyReset (withInputs rest s)) := by simp [step, acceptInput, h]

theorem step_rxThenReset {s : State} {b : Byte} {k : Nat} {rest : List Input}
    (h : s.inputs = .rxThenReset b k :: rest) :
    step s = abandonOutcome k (withInputs rest s) (feed b (withInputs rest s)) := by
  simp [step, acceptInput, h]

theorem runSteps_succ (n : Nat) {s t : State} (h : step s = .next t) :
    runSteps (n + 1) s = runSteps n t := by simp [runSteps, h]

/-! ### Replaying events -/

/-- Replaying events on a state records them and uses up their answers. -/
theorem grown_replay (es : List Event) (s : State) : Grown s (es.foldl replayEvent s) es := by
  induction es generalizing s with
  | nil => exact Grown.refl s
  | cons e es ih =>
    have h1 : Grown s (replayEvent s e) [e] := by
      cases e <;> constructor <;> simp [replayEvent, Event.isBusWrite, Event.isBusRead]
    exact h1.cons (ih _)

end Sys2Proof.Machine
end

