-- ==== Sys2Proof/Laws/Scan.lean ====
section
/-!
SUPPORT. The addresses DEVICELIST probes (20_memory.md R43), and the answers the environment gives to the
bus writes to come.
-/

namespace Sys2Proof.Machine

@[simp] theorem scanAddresses_length : scanAddresses.length = 126 := by
  simp [scanAddresses, Config.scanLast, Config.scanFirst]

theorem scanAddresses_getD {k : Nat} (h : k < 126) :
    scanAddresses.getD k 0#8 = BitVec.ofNat 8 (k + 1) := by
  simp [scanAddresses, Config.scanLast, Config.scanFirst, List.getD_eq_getElem?_getD,
    List.getElem?_range h, Nat.add_comm]

theorem scanAddresses_map_toNat : scanAddresses.map BitVec.toNat = (List.range 126).map (1 + ·) := by
  unfold scanAddresses
  rw [List.map_map]
  refine List.map_congr_left fun k hk => ?_
  have : k < 126 := List.mem_range.mp hk
  simp only [Function.comp_apply, Config.scanFirst, BitVec.toNat_ofNat]
  omega

/-- The addresses ascend strictly. -/
theorem scanAddresses_ascending : (scanAddresses.map BitVec.toNat).Pairwise (· < ·) := by
  rw [scanAddresses_map_toNat, List.pairwise_map]
  exact List.pairwise_lt_range.imp fun h => by omega

/-- The addresses are 1 to 126. -/
theorem scanAddresses_bounds {a : Byte} (h : a ∈ scanAddresses) : 1 ≤ a.toNat ∧ a.toNat ≤ 126 := by
  have : a.toNat ∈ (List.range 126).map (1 + ·) := scanAddresses_map_toNat ▸ List.mem_map_of_mem h
  obtain ⟨k, hk, he⟩ := List.mem_map.mp this
  have := List.mem_range.mp hk
  omega

theorem writeAnswerAfter_congr (k : Nat) {s t : State} (h1 : t.writeAnswers = s.writeAnswers)
    (h2 : t.freeIndex = s.freeIndex) : writeAnswerAfter k t = writeAnswerAfter k s := by
  induction k generalizing s t with
  | zero => exact nextWriteAnswer_congr h1 h2
  | succ k ih =>
    refine ih (by simp [h1]) ?_
    unfold popWriteAnswer
    rw [h1]
    split <;> simp [h2]

/-- A bus write uses up one answer. -/
theorem writeAnswerAfter_busWrite (k : Nat) (a : Byte) (d : List Byte) (s : State) :
    writeAnswerAfter k (busWrite a d s).2 = writeAnswerAfter (k + 1) s :=
  writeAnswerAfter_congr k rfl rfl

/-- Queued answers come in their order. -/
theorem writeAnswerAfter_queued {k : Nat} {s : State} {a : WriteAnswer}
    (h : s.writeAnswers[k]? = some a) : writeAnswerAfter k s = a := by
  induction k generalizing s with
  | zero =>
    cases hw : s.writeAnswers with
    | nil => rw [hw] at h; cases h
    | cons b as =>
      rw [hw] at h
      simpa [writeAnswerAfter, nextWriteAnswer, hw] using h
  | succ k ih =>
    refine ih ?_
    rw [popWriteAnswer_writeAnswers, List.getElem?_drop, Nat.add_comm]
    exact h

end Sys2Proof.Machine
end

