-- ==== Sys2Proof/Tests/Slice0.lean ====
section
/-!
SUPPORT. Tests. Expected results are the worked examples and vectors of spec/95_test_vectors.md,
spec/41_decoder.md section 5 and the wire images of spec/30_encoding.md R64, named in the comments; then, for
every statement that has hypotheses, a witness: a concrete state and operands that meet them all.
-/

namespace Sys2Proof.Tests

open Sys2Proof.Machine

/-- A block between frames, the fields whose reset value is OPEN set to numbers, with these inputs and these
answers of the bus. -/
def idle (inputs : List Input) (ws : List WriteAnswer) (rs : List ReadAnswer) : State where
  phase := .recv
  buf := []
  len := 0#8
  dcr := false
  cfg := { cap := 128#8, freq := .default, wrDelay := 5#8, resetPin := 4#8, resetPulse := 10#8,
           resetSettle := 50#8 }
  inputs := inputs
  writeAnswers := ws
  readAnswers := rs
  freeIndex := 0
  trace := []

/-- The same with a partial frame of bytes `bs` and capacity `cap`. -/
def partialFrame (cap : Byte) (bs : List Byte) (inputs : List Input) : State :=
  { idle inputs [] [] with
    buf := Memory.writeAll [] 0 bs
    len := BitVec.ofNat 8 bs.length
    cfg := { (idle [] [] []).cfg with cap := cap } }

/-- The same in `DISCARD`. -/
def discarding (dcr : Bool) (inputs : List Input) : State :=
  { idle inputs [] [] with phase := .discard, dcr := dcr }

/-- The events of an outcome. -/
def events : Host.Outcome State Fault Refusal → Option (List Event)
  | .next t => some t.trace
  | .fault _ => none
  | .refused _ => none

/-- The Configuration Store of an outcome. -/
def store : Host.Outcome State Fault Refusal → Option Cfg
  | .next t => some t.cfg
  | .fault _ => none
  | .refused _ => none

/-- Phase, length and CR flag of an outcome. -/
def reader : Host.Outcome State Fault Refusal → Option (Phase × Byte × Bool)
  | .next t => some (t.phase, t.len, t.dcr)
  | .fault _ => none
  | .refused _ => none

/-- The bytes of the frame in progress of an outcome. -/
def frame : Host.Outcome State Fault Refusal → Option (List Byte)
  | .next t => some (Memory.firstBytes t.buf t.len.toNat)
  | .fault _ => none
  | .refused _ => none

/-! ### WellFormed -/

theorem wf_write_replicate (addr b : Byte) (n : Nat) :
    (Instr.write addr (List.replicate n b)).WellFormed ↔ n ≤ 255 := by
  simp [Instr.WellFormed, Instr.wf]
theorem wf_writeRead_replicate (addr b rcount : Byte) (n : Nat) :
    (Instr.writeRead addr (List.replicate n b) rcount).WellFormed ↔ n ≤ 255 := by
  simp [Instr.WellFormed, Instr.wf]
theorem test_wf_refuses_write_of_256 : ¬ (Instr.write 0#8 (List.replicate 256 0#8)).WellFormed :=
  fun h => absurd ((wf_write_replicate _ _ _).mp h) (by decide)
theorem test_wf_refuses_writeRead_of_256 :
    ¬ (Instr.writeRead 0#8 (List.replicate 256 0#8) 0#8).WellFormed :=
  fun h => absurd ((wf_writeRead_replicate _ _ _ _).mp h) (by decide)
theorem test_wf_admits_255 : (Instr.write 0#8 (List.replicate 255 0#8)).WellFormed :=
  (wf_write_replicate _ _ _).mpr (Nat.le_refl _)

/-! ### Decoding, a body of every row written out from R51 and R53 to R58 -/

theorem test_decode_WRITE : decode [100#8, 23#8, 1#8, 65#8] = .instr (.write 23#8 [65#8]) := by decide
theorem test_decode_READ : decode [101#8, 23#8, 2#8] = .instr (.read 23#8 2#8) := by decide
/-- P1 step 3. -/
theorem test_decode_WRITEREAD : decode [102#8, 80#8, 2#8, 0#8, 16#8, 101#8, 2#8] =
    .instr (.writeRead 80#8 [0#8, 16#8] 2#8) := by decide
theorem test_decode_CHECKDEVICE : decode [103#8, 33#8] = .instr (.checkDevice 33#8) := by decide
theorem test_decode_DEVICELIST : decode [104#8] = .instr .deviceList := by decide
theorem test_decode_RESETDEVICES : decode [105#8] = .instr .resetDevices := by decide
theorem test_decode_ERROR : decode [106#8] = .instr .error := by decide
theorem test_decode_MESSAGEERROR : decode [107#8] = .instr .messageError := by decide
theorem test_decode_NOCOMMAND : decode [108#8] = .instr .noCommand := by decide
theorem test_decode_INFO : decode [109#8] = .instr .info := by decide
theorem test_decode_RESETI2CFREQ : decode [110#8] = .instr .resetI2CFreq := by decide
theorem test_decode_SET400KHZ : decode [111#8] = .instr .set400kHz := by decide
theorem test_decode_SETWRITEREADDELAY : decode [112#8, 5#8] = .instr (.setWriteReadDelay 5#8) := by decide
theorem test_decode_SETRESETPIN : decode [113#8, 4#8] = .instr (.setResetPin 4#8) := by decide
theorem test_decode_SETRESETTIME : decode [114#8, 10#8] = .instr (.setResetTime 10#8) := by decide
theorem test_decode_SETRESETSETTLETIME :
    decode [115#8, 50#8] = .instr (.setResetSettleTime 50#8) := by decide
theorem test_decode_SETINPUTBUFFERSIZE :
    decode [116#8, 64#8] = .instr (.setInputBufferSize 64#8) := by decide

/-- V-E1, V-E2, V-E3, V-E5, V-E6, V-E7: too short, too long, empty, count beyond the end, wrong marker. -/
theorem test_decode_message_errors : ∀ body ∈ ([[100#8], [100#8, 23#8], [101#8], [101#8, 23#8], [102#8],
    [102#8, 80#8], [102#8, 80#8, 0#8], [102#8, 80#8, 0#8, 101#8], [103#8], [112#8], [113#8], [114#8], [115#8],
    [116#8], [104#8, 0#8], [105#8, 1#8], [110#8, 0#8], [111#8, 0#8], [112#8, 5#8, 0#8], [103#8, 32#8, 0#8],
    [101#8, 23#8, 2#8, 0#8], [], [100#8, 23#8, 2#8, 65#8], [102#8, 80#8, 1#8, 0#8, 100#8, 2#8],
    [102#8, 80#8, 2#8, 0#8, 101#8, 2#8]] : List (List Byte)), decodeCommand body = .messageError := by decide

/-- V-E4. -/
theorem test_decode_no_commands : ∀ body ∈ ([[42#8, 1#8, 2#8, 3#8], [0#8], [99#8], [117#8], [255#8], [106#8],
    [107#8], [108#8], [109#8]] : List (List Byte)), decodeCommand body = .noCommand := by decide

/-- The opcode byte alone, as the host's table gives it, with zero operands. -/
theorem test_table_word_WRITEREAD : decodeTableWord 8 0x66 = some (.writeRead 0#8 [] 0#8) := by decide
theorem test_table_word_SETRESETPIN : decodeTableWord 8 0x71 = some (.setResetPin 0#8) := by decide
theorem test_table_word_unlisted_opcode : decodeTableWord 8 0x75 = none := by decide

/-! ### One step of every instruction -/

/-- V-W1. -/
theorem test_WRITE_reports_status : events (exec (.write 200#8 [1#8, 2#8]) (idle [] [.ok .dataNack] [])) =
    some [.busWrite .default 200#8 [1#8, 2#8] (.ok .dataNack), .tx [100#8, 200#8, 3#8, 13#8, 10#8]] := by
  decide
/-- 95_test_vectors.md P3 step 6. -/
theorem test_WRITE_fault : events (exec (.write 23#8 [1#8, 2#8, 3#8, 4#8]) (idle [] [.fault none] [])) =
    some [.busWrite .default 23#8 [1#8, 2#8, 3#8, 4#8] (.fault none), .tx [106#8, 13#8, 10#8]] := by decide
/-- S2. -/
theorem test_READ_reports_data : events (exec (.read 23#8 2#8) (idle [] [] [.ok [176#8, 177#8]])) =
    some [.busRead .default 23#8 2#8 (.ok [176#8, 177#8]),
      .tx [101#8, 23#8, 2#8, 176#8, 177#8, 13#8, 10#8]] := by decide
/-- 95_test_vectors.md P2 step 4: fewer bytes than requested. -/
theorem test_READ_short : events (exec (.read 32#8 4#8) (idle [] [] [.ok [1#8, 2#8]])) =
    some [.busRead .default 32#8 4#8 (.ok [1#8, 2#8]), .tx [101#8, 32#8, 2#8, 1#8, 2#8, 13#8, 10#8]] := by
  decide
/-- V-X4. -/
theorem test_WRITEREAD_fault_of_the_read :
    events (exec (.writeRead 80#8 [0#8] 2#8) (idle [] [.ok .success] [.fault (some 4#8)])) =
    some [.busWrite .default 80#8 [0#8] (.ok .success), .delay 5#8,
      .busRead .default 80#8 2#8 (.fault (some 4#8)), .tx [106#8, 4#8, 13#8, 10#8]] := by decide
/-- V-X3. -/
theorem test_WRITEREAD_fault_of_the_write :
    events (exec (.writeRead 80#8 [0#8] 2#8) (idle [] [.fault none] [])) =
    some [.busWrite .default 80#8 [0#8] (.fault none), .tx [106#8, 13#8, 10#8]] := by decide
/-- V-C3. -/
theorem test_CHECKDEVICE_reports_status : events (exec (.checkDevice 200#8) (idle [] [.ok .addressNack] [])) =
    some [.busWrite .default 200#8 [] (.ok .addressNack), .tx [103#8, 200#8, 2#8, 13#8, 10#8]] := by decide
/-- V-L4. -/
theorem test_DEVICELIST_stops_at_fault :
    events (exec .deviceList (idle [] [.ok .addressNack, .ok .success, .fault none] [])) =
    some [.busWrite .default 1#8 [] (.ok .addressNack), .busWrite .default 2#8 [] (.ok .success),
      .busWrite .default 3#8 [] (.fault none), .tx [106#8, 13#8, 10#8]] := by decide
/-- V-D1. -/
theorem test_RESETDEVICES_pulses : events (exec .resetDevices (idle [] [] [])) =
    some [.pinWrite 4#8 .low, .delay 10#8, .pinWrite 4#8 .high, .delay 50#8, .tx [105#8, 13#8, 10#8]] := by
  decide
/-- V-E4. -/
theorem test_rows_without_command : ∀ i ∈ [Instr.error, .messageError, .noCommand, .info],
    events (exec i (idle [] [] [])) = some [.tx [108#8, 13#8, 10#8]] := by decide
/-- V-F1, V-F3. -/
theorem test_frequency_commands :
    store (exec .set400kHz (idle [] [] [])) = some { (idle [] [] []).cfg with freq := .fast400k } ∧
    store (exec .resetI2CFreq { idle [] [] [] with cfg := { (idle [] [] []).cfg with freq := .fast400k } }) =
      some (idle [] [] []).cfg := by decide
/-- V-P1: each parameter in its field. -/
theorem test_parameter_commands :
    (store (exec (.setWriteReadDelay 77#8) (idle [] [] []))).map Cfg.wrDelay = some 77#8 ∧
    (store (exec (.setResetPin 77#8) (idle [] [] []))).map Cfg.resetPin = some 77#8 ∧
    (store (exec (.setResetTime 77#8) (idle [] [] []))).map Cfg.resetPulse = some 77#8 ∧
    (store (exec (.setResetSettleTime 77#8) (idle [] [] []))).map Cfg.resetSettle = some 77#8 ∧
    (store (exec (.setInputBufferSize 77#8) (idle [] [] []))).map Cfg.cap = some 77#8 := by decide
/-- V-P5: setting the pin writes no pin. -/
theorem test_SETRESETPIN_drives_nothing :
    events (exec (.setResetPin 4#8) (idle [] [] [])) = some [.tx [113#8, 13#8, 10#8]] := by decide

/-! ### The reader, one byte each -/

/-- S3, its last byte. -/
theorem test_reader_completes :
    events (step (partialFrame 128#8 [100#8, 23#8, 13#8] [.rx 10#8])) = some [.tx [107#8, 13#8, 10#8]] := by
  decide
/-- V-B11: of 13, 13, 10 the first 13 is data. -/
theorem test_reader_13_13_10 :
    events (step (partialFrame 128#8 [13#8, 13#8] [.rx 10#8])) = some [.tx [108#8, 13#8, 10#8]] := by decide
/-- V-B12: a leading 10 is data. -/
theorem test_reader_leading_LF :
    frame (step (idle [.rx 10#8] [] [])) = some [10#8] ∧ events (step (idle [.rx 10#8] [] [])) = some [] := by
  decide
/-- V-B9: at capacity 4 the 13 after four bytes overflows, with `dcr` = 1. -/
theorem test_reader_overflow :
    reader (step (partialFrame 4#8 [1#8, 2#8, 3#8, 4#8] [.rx 13#8])) = some (.discard, 0#8, true) ∧
    events (step (partialFrame 4#8 [1#8, 2#8, 3#8, 4#8] [.rx 13#8])) = some [.overflow] := by decide
/-- V-B1: at a full buffer whose last byte is 13, a 10 still completes (largest body, `cap` - 1). -/
theorem test_reader_completes_when_full :
    events (step (partialFrame 4#8 [42#8, 2#8, 3#8, 13#8] [.rx 10#8])) =
      some [.tx [108#8, 13#8, 10#8]] := by decide
/-- V-B10: what `dcr` becomes, and the end of the discard. -/
theorem test_reader_discard :
    reader (step (discarding false [.rx 13#8])) = some (.discard, 0#8, true) ∧
    reader (step (discarding true [.rx 13#8])) = some (.discard, 0#8, true) ∧
    reader (step (discarding true [.rx 7#8])) = some (.discard, 0#8, false) ∧
    reader (step (discarding false [.rx 10#8])) = some (.discard, 0#8, false) ∧
    reader (step (discarding true [.rx 10#8])) = some (.recv, 0#8, false) := by decide
/-- V-Z1: reset with a partial frame pending. -/
theorem test_reset_drops_the_partial_frame :
    reader (step (partialFrame 8#8 [100#8, 23#8] [.reset])) = some (.recv, 0#8, false) ∧
    events (step (partialFrame 8#8 [100#8, 23#8] [.reset])) = some [] := by decide
/-- 70_reset_and_hazards.md R156: reset after the first event of a RESETDEVICES leaves the pin low. -/
theorem test_reset_during_a_step :
    events (step (partialFrame 8#8 [105#8, 13#8] [.rxThenReset 10#8 1])) = some [.pinWrite 4#8 .low] := by
  decide
/-- Stale cells stay above `len`, and a zero byte is stored like any other. -/
theorem test_memory_write_then_read :
    Memory.read (Memory.write (Memory.writeAll [] 0 [7#8, 8#8, 9#8]) 1 0#8) 1 = 0#8 ∧
    Memory.write (Memory.writeAll [] 0 [7#8, 8#8, 9#8]) 1 0#8 = [(0, 7#8), (2, 9#8)] := by decide
/-- The host's fetch word runs its instruction. -/
theorem test_fetch_word :
    events (step ((idle [] [.ok .success] [.ok []]).withFetchWord 8 0x66)) =
      some [.busWrite .default 0#8 [] (.ok .success), .delay 5#8, .busRead .default 0#8 0#8 (.ok []),
        .tx [102#8, 0#8, 0#8, 13#8, 10#8]] := by decide

/-! ### Witnesses: a concrete state and operands that meet all hypotheses of a statement -/

theorem witness_NothingOfTheBlockPersistsAcrossReset :
    (partialFrame 8#8 [100#8, 23#8] [.reset]).inputs = .reset :: [] := by decide
theorem witness_ResetGivesTheResetValuesWithoutAnEvent :
    (discarding true [.reset, .rx 10#8]).inputs = .reset :: [.rx 10#8] := by decide
/-- A RESETDEVICES cut short after its first event, and one that ran to its end. -/
theorem witness_ResetDuringAStepKeepsOnlyWhatHappened :
    ((partialFrame 8#8 [105#8, 13#8] [.rxThenReset 10#8 1]).inputs = .rxThenReset 10#8 1 :: [] ∧
      ∃ t, feed 10#8 (withInputs [] (partialFrame 8#8 [105#8, 13#8] [.rxThenReset 10#8 1])) = .next t) ∧
    ((partialFrame 8#8 [105#8, 13#8] [.rxThenReset 10#8 5]).inputs = .rxThenReset 10#8 5 :: [] ∧
      ∃ t, feed 10#8 (withInputs [] (partialFrame 8#8 [105#8, 13#8] [.rxThenReset 10#8 5])) = .next t) :=
  ⟨⟨rfl, _, rfl⟩, rfl, _, rfl⟩
theorem witness_ReaderInvariantKeptByEveryStep :
    Inv (partialFrame 4#8 [1#8, 2#8, 3#8, 4#8] [.rx 13#8]) ∧
    ∃ t, step (partialFrame 4#8 [1#8, 2#8, 3#8, 4#8] [.rx 13#8]) = .next t := ⟨by decide, _, rfl⟩
theorem witness_WaitingForAByteChangesNothing : (idle [] [] []).inputs = [] := by decide
theorem witness_TraceOnlyGrows :
    ∃ t, step (partialFrame 8#8 [105#8, 13#8] [.rx 10#8]) = .next t := ⟨_, rfl⟩
/-- At the smallest length a completed frame of an instruction has. -/
theorem witness_StepRunsTheDecodedInstruction :
    (partialFrame 128#8 [104#8, 13#8] [.rx 10#8]).inputs = .rx 10#8 :: [] ∧
    (partialFrame 128#8 [104#8, 13#8] [.rx 10#8]).phase = .recv ∧
    1 ≤ (partialFrame 128#8 [104#8, 13#8] [.rx 10#8]).len.toNat ∧
    Memory.read (partialFrame 128#8 [104#8, 13#8] [.rx 10#8]).buf
      ((partialFrame 128#8 [104#8, 13#8] [.rx 10#8]).len.toNat - 1) = 13#8 ∧
    decode ((List.range ((partialFrame 128#8 [104#8, 13#8] [.rx 10#8]).len.toNat - 1)).map
      (Memory.read (partialFrame 128#8 [104#8, 13#8] [.rx 10#8]).buf)) = .instr .deviceList := by decide
theorem witness_FetchedTableWordRunsItsInstruction :
    Memory.wf (idle [] [] []).buf = true ∧ (tableBody 8 0x66).length ≤ 254 ∧
    decodeTableWord 8 0x66 = some (.writeRead 0#8 [] 0#8) := by decide
/-- At length 1 (the empty body) and at a full buffer. -/
theorem witness_TerminatorCompletesTheFrame :
    ∀ s ∈ [partialFrame 128#8 [13#8] [.rx 10#8], partialFrame 4#8 [42#8, 2#8, 3#8, 13#8] [.rx 10#8]],
      s.inputs = .rx 10#8 :: [] ∧ s.phase = .recv ∧ 1 ≤ s.len.toNat ∧
      Memory.read s.buf (s.len.toNat - 1) = 13#8 := by decide
/-- At capacity 4, 1 and 0, the last two with a 10 that does not complete. -/
theorem witness_ByteAtAFullBufferOverflows :
    ∀ x ∈ [(partialFrame 4#8 [1#8, 2#8, 3#8, 13#8] [.rx 13#8], 13#8),
        (partialFrame 1#8 [104#8] [.rx 10#8], 10#8), (partialFrame 0#8 [] [.rx 10#8], 10#8)],
      x.1.inputs = .rx x.2 :: [] ∧ x.1.phase = .recv ∧ x.1.cfg.cap.toNat ≤ x.1.len.toNat ∧
      ¬ (1 ≤ x.1.len.toNat ∧ Memory.read x.1.buf (x.1.len.toNat - 1) = 13#8 ∧ x.2 = 10#8) := by decide
/-- The first byte of a frame, and the byte that fills the buffer. -/
theorem witness_AppendStoresTheByteAtLen :
    ∀ x ∈ [(idle [.rx 10#8] [] [], 10#8), (partialFrame 4#8 [1#8, 2#8, 3#8] [.rx 13#8], 13#8)],
      Memory.wf x.1.buf = true ∧ x.1.inputs = .rx x.2 :: [] ∧ x.1.phase = .recv ∧
      x.1.len.toNat < x.1.cfg.cap.toNat ∧
      ¬ (1 ≤ x.1.len.toNat ∧ Memory.read x.1.buf (x.1.len.toNat - 1) = 13#8 ∧ x.2 = 10#8) := by decide
/-- Both clauses: the end of the discard, and a 10 and a 13 that do not end it. -/
theorem witness_DiscardDropsBytesUntilTheTerminator :
    ((discarding true [.rx 10#8]).inputs = .rx 10#8 :: [] ∧ (discarding true [.rx 10#8]).phase = .discard ∧
      ((discarding true [.rx 10#8]).dcr = true ∧ (10#8 : Byte) = 10#8)) ∧
    ((discarding false [.rx 10#8]).inputs = .rx 10#8 :: [] ∧ (discarding false [.rx 10#8]).phase = .discard ∧
      ¬ ((discarding false [.rx 10#8]).dcr = true ∧ (10#8 : Byte) = 10#8)) ∧
    ((discarding true [.rx 13#8]).inputs = .rx 13#8 :: [] ∧ (discarding true [.rx 13#8]).phase = .discard ∧
      ¬ ((discarding true [.rx 13#8]).dcr = true ∧ (13#8 : Byte) = 10#8)) := by decide
/-- A body of `cap - 1` bytes at capacity 4 (it ends in 13), with bytes of the next frame behind it. -/
theorem witness_DeliverableBodyReachesTheCommandLoop :
    Inv (partialFrame 4#8 [] (rxBytes ([42#8, 10#8, 13#8] ++ [13#8, 10#8]) ++ [.rx 104#8])) ∧
    (partialFrame 4#8 [] (rxBytes ([42#8, 10#8, 13#8] ++ [13#8, 10#8]) ++ [.rx 104#8])).phase = .recv ∧
    (partialFrame 4#8 [] (rxBytes ([42#8, 10#8, 13#8] ++ [13#8, 10#8]) ++ [.rx 104#8])).len = 0#8 ∧
    ([42#8, 10#8, 13#8] : List Byte).length + 1 ≤
      (partialFrame 4#8 [] (rxBytes ([42#8, 10#8, 13#8] ++ [13#8, 10#8]) ++ [.rx 104#8])).cfg.cap.toNat ∧
    noTerminatorPair [42#8, 10#8, 13#8] = true ∧
    (partialFrame 4#8 [] (rxBytes ([42#8, 10#8, 13#8] ++ [13#8, 10#8]) ++ [.rx 104#8])).inputs =
      rxBytes ([42#8, 10#8, 13#8] ++ [13#8, 10#8]) ++ [.rx 104#8] := by decide
/-- P4d: a data field that ends in 13. -/
theorem witness_RequestFrameRunsItsInstruction :
    Inv (idle (rxBytes (encodeFrame (.write 23#8 [10#8, 13#8])) ++ []) [] []) ∧
    (idle (rxBytes (encodeFrame (.write 23#8 [10#8, 13#8])) ++ []) [] []).phase = .recv ∧
    (idle (rxBytes (encodeFrame (.write 23#8 [10#8, 13#8])) ++ []) [] []).len = 0#8 ∧
    (Instr.write 23#8 [10#8, 13#8]).WellFormed ∧
    (encode (.write 23#8 [10#8, 13#8])).length + 1 ≤
      (idle (rxBytes (encodeFrame (.write 23#8 [10#8, 13#8])) ++ []) [] []).cfg.cap.toNat ∧
    noTerminatorPair (encode (.write 23#8 [10#8, 13#8])) = true ∧
    (idle (rxBytes (encodeFrame (.write 23#8 [10#8, 13#8])) ++ []) [] []).inputs =
      rxBytes (encodeFrame (.write 23#8 [10#8, 13#8])) ++ [] := by decide

/-- Two frames, the first of which lowers the capacity to what the second needs. -/
def pipelined : State :=
  idle (rxBytes (encodeFrame (.setInputBufferSize 2#8)) ++ (rxBytes (encodeFrame .set400kHz) ++ [])) [] []
theorem witness_PipelinedFramesRunInOrder :
    (Inv pipelined ∧ pipelined.phase = .recv ∧ pipelined.len = 0#8 ∧
      (Instr.setInputBufferSize 2#8).WellFormed ∧
      (encode (.setInputBufferSize 2#8)).length + 1 ≤ pipelined.cfg.cap.toNat ∧
      noTerminatorPair (encode (.setInputBufferSize 2#8)) = true ∧
      pipelined.inputs =
        rxBytes (encodeFrame (.setInputBufferSize 2#8)) ++ (rxBytes (encodeFrame .set400kHz) ++ []) ∧
      Instr.set400kHz.WellFormed ∧ noTerminatorPair (encode .set400kHz) = true) ∧
    ∃ t, runSteps (encodeFrame (.setInputBufferSize 2#8)).length pipelined = .next t ∧
      (encode .set400kHz).length + 1 ≤ t.cfg.cap.toNat := ⟨by decide, _, rfl, by decide⟩
/-- At capacity 2, byte 3 a 13; and at capacity 0. -/
theorem witness_ByteCapPlusOneOverflows :
    ∀ x ∈ [(partialFrame 2#8 [] (rxBytes ([104#8, 10#8] ++ [13#8]) ++ []), [104#8, 10#8], 13#8),
        (partialFrame 0#8 [] (rxBytes ([] ++ [104#8]) ++ []), [], 104#8)],
      Inv x.1 ∧ x.1.phase = .recv ∧ x.1.len = 0#8 ∧ x.2.1.length = x.1.cfg.cap.toNat ∧
      noTerminatorPair (x.2.1 ++ [x.2.2]) = true ∧ x.1.inputs = rxBytes (x.2.1 ++ [x.2.2]) ++ [] := by decide
/-- With a CR just dropped: the first byte is not 10; and with the terminator next. -/
theorem witness_DiscardedFrameIsDroppedInSilence :
    ∀ x ∈ [(discarding true (rxBytes ([13#8, 7#8, 10#8] ++ [13#8, 10#8]) ++ []), [13#8, 7#8, 10#8]),
        (discarding true (rxBytes ([] ++ [13#8, 10#8]) ++ []), ([] : List Byte))],
      x.1.phase = .discard ∧ noTerminatorPair x.2 = true ∧ ¬ (x.1.dcr = true ∧ x.2.head? = some 10#8) ∧
      x.1.inputs = rxBytes (x.2 ++ [13#8, 10#8]) ++ [] := by decide
/-- Both clauses (capacity 4, capacity 0), and from `DISCARD`. -/
theorem witness_TwoTerminatorsSynchroniseTheReader :
    ∀ s ∈ [partialFrame 4#8 [1#8, 2#8, 3#8, 4#8] (rxBytes [13#8, 10#8, 13#8, 10#8] ++ []),
        partialFrame 0#8 [] (rxBytes [13#8, 10#8, 13#8, 10#8] ++ []),
        discarding true (rxBytes [13#8, 10#8, 13#8, 10#8] ++ [])],
      Inv s ∧ s.inputs = rxBytes [13#8, 10#8, 13#8, 10#8] ++ [] := by decide
/-- First clause at capacity 2 with a whole SETINPUTBUFFERSIZE body in the buffer; then the second clause. -/
theorem witness_CapacityUpToTwoIsLeftOnlyByReset :
    (Inv (partialFrame 2#8 [116#8, 128#8] [.rx 13#8]) ∧
      (partialFrame 2#8 [116#8, 128#8] [.rx 13#8]).cfg.cap.toNat ≤ 2 ∧
      (partialFrame 2#8 [116#8, 128#8] [.rx 13#8]).inputs = .rx 13#8 :: [] ∧
      ∃ t, step (partialFrame 2#8 [116#8, 128#8] [.rx 13#8]) = .next t) ∧
    (partialFrame 2#8 [] [.reset]).inputs = .reset :: [] ∧
      ∃ t, step (partialFrame 2#8 [] [.reset]) = .next t :=
  ⟨⟨by decide, by decide, rfl, _, rfl⟩, rfl, _, rfl⟩
/-- Two states whose stale cell 1 differs, at the step that overwrites it. -/
theorem witness_CellsBeyondLenAreNeverRead :
    (Memory.wf (partialFrame 4#8 [9#8] [.rx 7#8]).buf = true ∧
      Memory.wf { partialFrame 4#8 [9#8] [.rx 7#8] with buf := [(0, 9#8), (1, 5#8)] }.buf = true ∧
      (partialFrame 4#8 [9#8] [.rx 7#8]).buf ≠ [(0, 9#8), (1, 5#8)] ∧
      AgreeBelowLen (partialFrame 4#8 [9#8] [.rx 7#8])
        { partialFrame 4#8 [9#8] [.rx 7#8] with buf := [(0, 9#8), (1, 5#8)] }) ∧
    ∃ t, step (partialFrame 4#8 [9#8] [.rx 7#8]) = .next t :=
  ⟨⟨by decide, by decide, by decide, by decide, by decide⟩, _, rfl⟩
/-- Both clauses. -/
theorem witness_OneResponsePerCompletedFrame :
    ((∃ t, feed 10#8 (partialFrame 4#8 [42#8, 13#8] []) = .next t) ∧
      readerArm 10#8 (partialFrame 4#8 [42#8, 13#8] []) = .complete) ∧
    (∃ t, feed 10#8 (partialFrame 4#8 [42#8] []) = .next t) ∧
      readerArm 10#8 (partialFrame 4#8 [42#8] []) ≠ .complete :=
  ⟨⟨⟨_, rfl⟩, by decide⟩, ⟨_, rfl⟩, by decide⟩
theorem witness_CompletedFrameLeavesTheReaderEmpty :
    ((partialFrame 4#8 [42#8, 13#8] []).dcr = false ∧
      readerArm 10#8 (partialFrame 4#8 [42#8, 13#8] []) = .complete) ∧
    ∃ t, feed 10#8 (partialFrame 4#8 [42#8, 13#8] []) = .next t := ⟨by decide, _, rfl⟩
theorem witness_DecodeOfEncodeIsTheInstruction :
    (Instr.write 0#8 (List.replicate 255 0#8)).WellFormed ∧
      (Instr.writeRead 0#8 (List.replicate 255 101#8) 0#8).WellFormed ∧ (Instr.read 23#8 2#8).WellFormed :=
  ⟨(wf_write_replicate _ _ _).mpr (Nat.le_refl _), (wf_writeRead_replicate _ _ _ _).mpr (Nat.le_refl _), rfl⟩
/-- With surplus bytes and without. -/
theorem witness_DecodedBodyBeginsWithItsCanonicalForm :
    decode [102#8, 80#8, 1#8, 0#8, 101#8, 1#8, 99#8] = .instr (.writeRead 80#8 [0#8] 1#8) ∧
    decode [104#8] = .instr .deviceList ∧ decode [106#8, 1#8] = .instr .error := by decide
theorem witness_SurplusBytesOfTransfersAreIgnored :
    (List.replicate 255 0#8 : List Byte).length ≤ 255 ∧ ([] : List Byte).length ≤ 255 :=
  ⟨List.length_replicate.le, Nat.zero_le _⟩
/-- All three clauses. -/
theorem witness_CommandLoopFollowsTheDecoder :
    decodeCommand [] = .messageError ∧ decodeCommand [109#8] = .noCommand ∧
    decodeCommand [116#8, 255#8] = .instr (.setInputBufferSize 255#8) := by decide
theorem witness_MalformedFrameIsAnsweredMessageError :
    decode [102#8, 80#8, 2#8, 0#8, 101#8, 2#8] = .messageError ∧
    decodeCommand [104#8] = .instr .deviceList := by decide
theorem witness_RowsThatAreNotCommandsRaiseNoCommand :
    ∀ i ∈ [Instr.error, .messageError, .noCommand, .info],
      i = .error ∨ i = .messageError ∨ i = .noCommand ∨ i = .info := by decide
/-- Every clause with hypotheses, the lengths at their bounds. -/
theorem witness_NormalResponseEncodings :
    ((100#8 : Byte) = 100#8 ∨ (100#8 : Byte) = 103#8) ∧ ((103#8 : Byte) = 100#8 ∨ (103#8 : Byte) = 103#8) ∧
    (((101#8 : Byte) = 101#8 ∨ (101#8 : Byte) = 102#8) ∧ (List.replicate 255 0#8 : List Byte).length ≤ 255) ∧
    (List.replicate 126 1#8 : List Byte).length ≤ 126 ∧
    (Instr.set400kHz = .resetDevices ∨ Instr.set400kHz = .resetI2CFreq ∨ Instr.set400kHz = .set400kHz) ∧
    (Instr.setResetPin 255#8 = .setWriteReadDelay 255#8 ∨ Instr.setResetPin 255#8 = .setResetPin 255#8 ∨
      Instr.setResetPin 255#8 = .setResetTime 255#8 ∨ Instr.setResetPin 255#8 = .setResetSettleTime 255#8 ∨
      Instr.setResetPin 255#8 = .setInputBufferSize 255#8) :=
  ⟨.inl rfl, .inr rfl, ⟨.inl rfl, List.length_replicate.le⟩, List.length_replicate.le, .inr (.inr rfl),
    .inr (.inl rfl)⟩
/-- Both conditions on an instruction, and the three answers of the decoder. -/
theorem witness_EveryResponseIsAClosedFrame :
    (Instr.read 1#8 255#8).isCommand = true ∧ Instr.info.isCommand = false ∧
    decodeCommand [101#8, 1#8, 255#8] = .instr (.read 1#8 255#8) ∧
    decodeCommand [100#8, 23#8] = .messageError ∧ decodeCommand [109#8] = .noCommand := by decide
/-- Both clauses: the first for a body that is rejected either way, the second for data that holds 13. -/
theorem witness_ClientCutsEveryResponseByItsFields :
    (∃ t, runCommand [100#8, 23#8] (idle [] [] []) = .next t ∧
      t.trace.getLast? = some (.tx [107#8, 13#8, 10#8])) ∧
    (∃ t, runCommand [42#8] (idle [] [] []) = .next t ∧
      t.trace.getLast? = some (.tx [108#8, 13#8, 10#8])) ∧
    ∃ t, exec (.read 13#8 1#8) (idle [] [] [.ok [13#8]]) = .next t ∧
      t.trace.getLast? = some (.tx [101#8, 13#8, 1#8, 13#8, 13#8, 10#8]) :=
  ⟨⟨_, rfl, by decide⟩, ⟨_, rfl, by decide⟩, _, rfl, by decide⟩
/-- The two cases of the write step of a WRITEREAD. -/
theorem witness_WriteReadWritesThenWaitsThenReads :
    nextWriteAnswer (idle [] [.fault none] []) = .fault none ∧
    nextWriteAnswer (idle [] [.ok .addressNack] []) = .ok .addressNack := by decide
theorem witness_ReadReportsTheBytesReceived :
    nextReadAnswer 2#8 (idle [] [] [.ok [1#8, 2#8]]) = .ok [1#8, 2#8] := by decide

/-- A bus on which devices 1 and 126 answer. -/
def twoDevices : List WriteAnswer :=
  .ok .success :: (List.replicate 124 (.ok .addressNack) ++ [.ok .success])
theorem twoDevices_ok {a : WriteAnswer} (h : a ∈ twoDevices) : ∃ st, a = .ok st := by
  simp only [twoDevices, List.mem_cons, List.mem_append, List.mem_replicate, List.not_mem_nil, or_false] at h
  rcases h with h | ⟨-, h⟩ | h <;> exact ⟨_, h⟩
theorem witness_DeviceListProbesEveryAddressAndListsTheFound :
    ∀ k, k < 126 → ∃ st, writeAnswerAfter k (idle [] twoDevices []) = .ok st := by
  intro k hk
  have hl : k < twoDevices.length := by simpa [twoDevices] using hk
  have hq := writeAnswerAfter_queued (s := idle [] twoDevices []) (List.getElem?_eq_getElem hl)
  rw [hq]
  exact twoDevices_ok (List.getElem_mem hl)
/-- The first fault at probe 1 (address 1) and at probe 3. -/
theorem witness_DeviceListStopsAtTheFirstFault :
    (0 < 126 ∧ (∀ k, k < 0 → ∃ ok, writeAnswerAfter k (idle [] [.fault (some 2#8)] []) = .ok ok) ∧
      writeAnswerAfter 0 (idle [] [.fault (some 2#8)] []) = .fault (some 2#8)) ∧
    (2 < 126 ∧ (∀ k, k < 2 →
        ∃ ok, writeAnswerAfter k (idle [] [.ok .addressNack, .ok .success, .fault none] []) = .ok ok) ∧
      writeAnswerAfter 2 (idle [] [.ok .addressNack, .ok .success, .fault none] []) = .fault none) := by
  refine ⟨⟨by decide, fun k hk => absurd hk (Nat.not_lt_zero k), rfl⟩, by decide, fun k hk => ?_, rfl⟩
  match k, hk with
  | 0, _ => exact ⟨_, rfl⟩
  | 1, _ => exact ⟨_, rfl⟩
theorem witness_ResetDevicesPulsesThePinLow :
    (5#8 : Byte) ≠ (idle [] [] []).cfg.resetPin ∧ ([105#8, 1#8] : List Byte).head? = some 105#8 ∧
    ([105#8, 1#8] : List Byte).length ≠ 1 := by decide
theorem witness_FrequencyCommandsSetTheMode :
    ∀ body ∈ ([[110#8, 0#8], [111#8, 0#8]] : List (List Byte)),
      (body.head? = some 110#8 ∨ body.head? = some 111#8) ∧ body.length ≠ 1 := by decide
theorem witness_ParameterCommandsStoreTheirByte :
    ∀ body ∈ ([[112#8], [112#8, 5#8, 0#8], [113#8], [115#8]] : List (List Byte)),
      (body.head? = some 112#8 ∨ body.head? = some 113#8 ∨ body.head? = some 115#8) ∧
      body.length ≠ 2 := by decide
theorem witness_SetInputBufferSizeStoresCapacityAndResetsReader :
    (idle [] [] []).phase = .recv ∧ (idle [] [] []).len = 0#8 ∧ (idle [] [] []).dcr = false := by decide
/-- One instruction that writes a field and one that writes none. -/
theorem witness_OnlyTheSevenCommandsWriteTheirField :
    (∃ t, exec (.setResetTime 255#8) (idle [] [] []) = .next t) ∧
    ∃ t, exec (.write 1#8 []) (idle [] [.ok .success] []) = .next t := ⟨⟨_, rfl⟩, _, rfl⟩
theorem witness_ReaderAndBufferUntouchedByInstructions :
    (∃ t, exec .resetDevices (idle [] [] []) = .next t) ∧
    ∀ p, Instr.resetDevices ≠ .setInputBufferSize p := ⟨⟨_, rfl⟩, fun _ h => nomatch h⟩
theorem witness_BusOperationsUseTheConfiguredMode :
    ∃ t, exec (.checkDevice 1#8) (idle [] [.ok .success] []) = .next t ∧
      Event.busWrite .default 1#8 [] (.ok .success) ∈ newEvents (idle [] [.ok .success] []) t ∧
      Event.busMode (.busWrite .default 1#8 [] (.ok .success)) = some .default := ⟨_, rfl, by decide, rfl⟩
/-- A pin write and a wait of RESETDEVICES, and both bus events of a WRITEREAD. -/
theorem witness_EventsOnlyOfTheCommandsThatListThem :
    (∃ t, exec .resetDevices (idle [] [] []) = .next t ∧
      Event.pinWrite 4#8 .low ∈ newEvents (idle [] [] []) t ∧
      Event.delay 10#8 ∈ newEvents (idle [] [] []) t) ∧
    ∃ t, exec (.writeRead 1#8 [] 1#8) (idle [] [.ok .success] [.ok []]) = .next t ∧
      Event.busWrite .default 1#8 [] (.ok .success) ∈ newEvents (idle [] [.ok .success] [.ok []]) t ∧
      Event.busRead .default 1#8 1#8 (.ok []) ∈ newEvents (idle [] [.ok .success] [.ok []]) t :=
  ⟨⟨_, rfl, by decide, by decide⟩, _, rfl, by decide, by decide⟩
/-- The environment has three bytes, one is asked for. -/
theorem witness_NoReadAnswerExceedsTheRequest :
    ∃ t, exec (.read 1#8 1#8) (idle [] [] [.ok [1#8, 2#8, 3#8]]) = .next t ∧
      Event.busRead .default 1#8 1#8 (.ok [1#8]) ∈ newEvents (idle [] [] [.ok [1#8, 2#8, 3#8]]) t :=
  ⟨_, rfl, by decide⟩
/-- The three cases: no fault, a fault without a status, a fault with one. -/
theorem witness_BusFaultEndsTheCommandWithError :
    (∃ t, exec (.write 1#8 []) (idle [] [.ok .dataNack] []) = .next t) ∧
    (∃ t, exec (.write 1#8 []) (idle [] [.fault none] []) = .next t) ∧
    ∃ t, exec (.read 1#8 1#8) (idle [] [] [.fault (some 255#8)]) = .next t := ⟨⟨_, rfl⟩, ⟨_, rfl⟩, _, rfl⟩
theorem witness_NonZeroStatusIsNotAnException :
    BusStatus.otherError ≠ .success ∧
    nextWriteAnswer (idle [] [.ok .otherError] [.ok [7#8]]) = .ok .otherError ∧
    nextReadAnswer 1#8 (popWriteAnswer (idle [] [.ok .otherError] [.ok [7#8]])) = .ok [7#8] := by decide

set_option maxRecDepth 4000 in
/-- The list of a scan that found two devices. -/
theorem witness_DeviceListIsStrictlyAscending :
    ∃ t, exec .deviceList (idle [] twoDevices []) = .next t ∧
      t.trace.getLast? = some (.tx ([104#8, 2#8] ++ [1#8, 126#8] ++ [13#8, 10#8])) := by
  refine ⟨_, rfl, ?_⟩
  decide

end Sys2Proof.Tests
end

/-! ### What a step can do, and the trace -/

section
namespace Sys2Proof.Machine

/-- A step that a reset interrupts answers only where the whole step would have answered (R156). -/
theorem abandonOutcome_next {k : Nat} {s t : State} {o : Host.Outcome State Fault Refusal}
    (h : abandonOutcome k s o = .next t) : ∃ u, o = .next u ∧ t = abandonAfter k s u := by
  cases o with
  | next u => exact ⟨u, rfl, by simpa [abandonOutcome] using h.symm⟩
  | fault f => simp [abandonOutcome] at h
  | refused r => simp [abandonOutcome] at h

theorem step_of_no_input {s : State} (h : s.inputs = []) : step s = .next s := by
  simp [step, acceptInput, h]

/-- The inversion of the step, by what is first among the inputs (R6, R156, R157). -/
theorem step_cases {s t : State} (h : step s = .next t) :
    (s.inputs = [] ∧ t = s) ∨
    (∃ b rest, s.inputs = .rx b :: rest ∧ feed b (withInputs rest s) = .next t) ∨
    (∃ rest, s.inputs = .reset :: rest ∧ t = applyReset (withInputs rest s)) ∨
    (∃ b k rest u, s.inputs = .rxThenReset b k :: rest ∧ feed b (withInputs rest s) = .next u ∧
      t = abandonAfter k (withInputs rest s) u) := by
  cases hin : s.inputs with
  | nil =>
    rw [step_of_no_input hin] at h
    cases h
    exact .inl ⟨rfl, rfl⟩
  | cons i rest =>
    cases i with
    | rx b => exact .inr (.inl ⟨b, rest, rfl, (step_rx hin).symm.trans h⟩)
    | reset =>
      rw [step_reset hin] at h
      cases h
      exact .inr (.inr (.inl ⟨rest, rfl, rfl⟩))
    | rxThenReset b k =>
      obtain ⟨u, hu, ht⟩ := abandonOutcome_next ((step_rxThenReset hin).symm.trans h)
      exact .inr (.inr (.inr ⟨b, k, rest, u, rfl, hu, ht⟩))

theorem runCommand_trace_prefix {body : List Byte} {s t : State} (h : runCommand body s = .next t) :
    s.trace <+: t.trace := by
  obtain ⟨t', es, fr, ht, htrace, -⟩ := runCommand_answers body s
  cases h.symm.trans ht
  exact ⟨_, htrace.symm⟩

theorem feed_trace_prefix {b : Byte} {s t : State} (h : feed b s = .next t) :
    s.trace <+: t.trace := by
  rcases readerArm_cases b s with ⟨ha, -⟩ | ⟨ha, -⟩ | ⟨ha, -⟩ | ⟨ha, -⟩
  · rw [feed_complete ha] at h
    simpa using runCommand_trace_prefix h
  · rw [feed_overflow ha] at h
    cases h
    simp
  · rw [feed_append ha] at h
    cases h
    simp
  · rw [feed_discard ha] at h
    cases h
    simp

/-- The events before the reset stay in the trace, whatever the whole step would have recorded (R156). -/
theorem abandonAfter_trace_prefix (k : Nat) (s t : State) : s.trace <+: (abandonAfter k s t).trace :=
  ⟨_, (grown_replay ((t.trace.drop s.trace.length).take k) s).trace.symm⟩

/-- Settles O8: each kind of input extends the trace, the reset that interrupts a step included. -/
theorem traceOnlyGrows : Obligations.TraceOnlyGrows := by
  intro s t h
  rcases step_cases h with ⟨-, rfl⟩ | ⟨b, rest, -, hf⟩ | ⟨rest, -, rfl⟩ | ⟨b, k, rest, u, -, -, rfl⟩
  · exact List.prefix_rfl
  · exact feed_trace_prefix (s := withInputs rest s) hf
  · exact List.prefix_rfl
  · exact abandonAfter_trace_prefix k (withInputs rest s) u

end Sys2Proof.Machine
end

/-! ### What every instruction leaves of the block -/

section
namespace Sys2Proof.Machine

@[simp] theorem written_buf (i : Instr) (s : State) : (written i s).buf = s.buf := by cases i <;> rfl

@[simp] theorem written_inputs (i : Instr) (s : State) : (written i s).inputs = s.inputs := by
  cases i <;> rfl

@[simp] theorem written_trace (i : Instr) (s : State) : (written i s).trace = s.trace := by
  cases i <;> rfl

theorem written_reader {i : Instr} (hi : ∀ p, i ≠ .setInputBufferSize p) (s : State) :
    (written i s).phase = s.phase ∧ (written i s).len = s.len ∧ (written i s).dcr = s.dcr := by
  cases i with
  | setInputBufferSize p => exact absurd rfl (hi p)
  | _ => exact ⟨rfl, rfl, rfl⟩

theorem written_len_zero (i : Instr) {s : State} (h : s.len = 0#8) : (written i s).len = 0#8 := by
  cases i with
  | setInputBufferSize p => rfl
  | _ => exact h

/-- Settles O50: recording events leaves the Configuration Store as `written` has it. -/
theorem onlyTheSevenCommandsWriteTheirField : Obligations.OnlyTheSevenCommandsWriteTheirField := by
  intro i s t h
  obtain ⟨es, fr, hs⟩ := exec_shape_of_next h
  rw [hs.grown.cfg]
  cases i <;> rfl

/-- Settles O51: `written` touches neither the buffer nor the inputs, and after it only events are
recorded. -/
theorem readerAndBufferUntouchedByInstructions :
    Obligations.ReaderAndBufferUntouchedByInstructions := by
  intro i s t h
  obtain ⟨es, fr, hs⟩ := exec_shape_of_next h
  have hg := hs.grown
  refine ⟨fun n => by rw [hg.buf, written_buf], by rw [hg.inputs, written_inputs],
    ⟨es ++ [.tx fr], by rw [hg.trace, written_trace]⟩, fun hi => ?_⟩
  rw [hg.phase, hg.len, hg.dcr]
  exact written_reader hi s

end Sys2Proof.Machine
end

/-! ### Instructions do not depend on the frame buffer -/

section
namespace Sys2Proof.Machine

/-- `s` with another frame buffer: what two states that differ in stale cells only have in common. -/
def withBuf (m : Memory) (s : State) : State := { s with buf := m }

@[simp] theorem withBuf_buf (m : Memory) (s : State) : (withBuf m s).buf = m := rfl
@[simp] theorem withBuf_len (m : Memory) (s : State) : (withBuf m s).len = s.len := rfl
@[simp] theorem withBuf_inputs (m : Memory) (s : State) : (withBuf m s).inputs = s.inputs := rfl

@[simp] theorem popWriteAnswer_withBuf (m : Memory) (s : State) :
    popWriteAnswer (withBuf m s) = withBuf m (popWriteAnswer s) := by
  unfold popWriteAnswer withBuf
  cases s.writeAnswers <;> rfl

@[simp] theorem popReadAnswer_withBuf (m : Memory) (s : State) :
    popReadAnswer (withBuf m s) = withBuf m (popReadAnswer s) := by
  unfold popReadAnswer withBuf
  cases s.readAnswers <;> rfl

theorem busWrite_withBuf (a : Byte) (d : List Byte) (m : Memory) (s : State) :
    busWrite a d (withBuf m s) = Prod.map id (withBuf m) (busWrite a d s) := by
  simp only [busWrite, popWriteAnswer_withBuf]
  rfl

theorem busRead_withBuf (a n : Byte) (m : Memory) (s : State) :
    busRead a n (withBuf m s) = Prod.map id (withBuf m) (busRead a n s) := by
  simp only [busRead, popReadAnswer_withBuf]
  rfl

theorem executeWrite_withBuf (addr : Byte) (data : List Byte) (m : Memory) (s : State) :
    executeWrite addr data (withBuf m s) = Prod.map id (withBuf m) (executeWrite addr data s) := by
  unfold executeWrite
  rw [busWrite_withBuf]
  obtain ⟨answer, s1⟩ := busWrite addr data s
  cases answer <;> rfl

theorem executeRead_withBuf (addr count : Byte) (m : Memory) (s : State) :
    executeRead addr count (withBuf m s) = Prod.map id (withBuf m) (executeRead addr count s) := by
  unfold executeRead
  rw [busRead_withBuf]
  obtain ⟨answer, s1⟩ := busRead addr count s
  cases answer <;> rfl

theorem executeWriteRead_withBuf (addr : Byte) (wdata : List Byte) (rcount : Byte) (m : Memory)
    (s : State) : executeWriteRead addr wdata rcount (withBuf m s) =
      Prod.map id (withBuf m) (executeWriteRead addr wdata rcount s) := by
  unfold executeWriteRead
  rw [busWrite_withBuf]
  obtain ⟨answer, s1⟩ := busWrite addr wdata s
  cases answer with
  | fault st => rfl
  | ok st =>
    have hread : busRead addr rcount (delay (withBuf m s1).cfg.wrDelay (withBuf m s1)) =
        Prod.map id (withBuf m) (busRead addr rcount (delay s1.cfg.wrDelay s1)) :=
      busRead_withBuf addr rcount m (delay s1.cfg.wrDelay s1)
    simp only [Prod.map_apply, id_eq, hread]
    obtain ⟨answer, s2⟩ := busRead addr rcount (delay s1.cfg.wrDelay s1)
    cases answer <;> rfl

theorem executeCheckDevice_withBuf (addr : Byte) (m : Memory) (s : State) :
    executeCheckDevice addr (withBuf m s) = Prod.map id (withBuf m) (executeCheckDevice addr s) := by
  unfold executeCheckDevice probe
  rw [busWrite_withBuf]
  obtain ⟨answer, s1⟩ := busWrite addr [] s
  cases answer <;> rfl

theorem scan_withBuf (as found : List Byte) (m : Memory) (s : State) :
    scan as found (withBuf m s) = Prod.map id (withBuf m) (scan as found s) := by
  induction as generalizing found s with
  | nil => rfl
  | cons a as ih =>
    have hanswer : nextWriteAnswer (withBuf m s) = nextWriteAnswer s := rfl
    have hstate : (busWrite a [] (withBuf m s)).2 = withBuf m (busWrite a [] s).2 := by
      rw [busWrite_withBuf, Prod.map_snd]
    cases h : nextWriteAnswer s with
    | fault st =>
      rw [scan_fault h, scan_fault (hanswer.trans h), hstate]
      rfl
    | ok st => rw [scan_ok h, scan_ok (hanswer.trans h), hstate, ih]

theorem respond_withBuf (op : Byte) (m : Memory) (x : Result × State) :
    respond op (Prod.map id (withBuf m) x) = withBuf m (respond op x) := by
  rw [respond_eq, respond_eq]
  rfl

/-- An `execute` function that commutes with a change of the buffer does so with its response. -/
theorem respond_execute_withBuf {m : Memory} {s : State} {execute : State → Result × State} (op : Byte)
    (h : execute (withBuf m s) = Prod.map id (withBuf m) (execute s)) :
    (Host.Outcome.next (respond op (execute (withBuf m s))) : Host.Outcome State Fault Refusal) =
      .next (withBuf m (respond op (execute s))) := by
  rw [h, respond_withBuf]

/-- No instruction reads or writes the frame buffer. -/
theorem exec_withBuf {i : Instr} {s t : State} (m : Memory) (h : exec i s = .next t) :
    exec i (withBuf m s) = .next (withBuf m t) := by
  cases i with
  | write addr data => cases h; exact respond_execute_withBuf _ (executeWrite_withBuf addr data m s)
  | read addr count => cases h; exact respond_execute_withBuf _ (executeRead_withBuf addr count m s)
  | writeRead addr wdata rcount =>
    cases h; exact respond_execute_withBuf _ (executeWriteRead_withBuf addr wdata rcount m s)
  | checkDevice addr => cases h; exact respond_execute_withBuf _ (executeCheckDevice_withBuf addr m s)
  | deviceList => cases h; exact respond_execute_withBuf _ (scan_withBuf scanAddresses [] m s)
  | _ => cases h; rfl

theorem runCommand_withBuf {body : List Byte} {s t : State} (m : Memory)
    (h : runCommand body s = .next t) : runCommand body (withBuf m s) = .next (withBuf m t) := by
  cases hd : decode body with
  | instr i =>
    rw [runCommand_instr hd] at h ⊢
    exact exec_withBuf m h
  | messageError =>
    rw [runCommand_messageError hd] at h ⊢
    cases h; rfl
  | noCommand =>
    rw [runCommand_noCommand hd] at h ⊢
    cases h; rfl

theorem runCommand_len_zero {body : List Byte} {s t : State} (h : runCommand body s = .next t)
    (hl : s.len = 0#8) : t.len = 0#8 := by
  rcases runCommand_cases body s with ⟨i, -, hr⟩ | ⟨fr, -, hr⟩
  · obtain ⟨es, fr, hs⟩ := exec_shape_of_next (hr.symm.trans h)
    rw [hs.grown.len]
    exact written_len_zero i hl
  · cases hr.symm.trans h
    exact hl

end Sys2Proof.Machine
end

/-! ### The reader and the step read no cell at or above `len` -/

section
namespace Sys2Proof.Machine

/-- The buffers `m` and `m'` hold the same bytes in their first `n` cells. -/
def SameCells (n : Nat) (m m' : Memory) : Prop := ∀ k, k < n → Memory.read m' k = Memory.read m k

theorem agreeBelowLen_withBuf_iff {m : Memory} {s : State} :
    AgreeBelowLen s (withBuf m s) ↔ SameCells s.len.toNat s.buf m :=
  ⟨fun h => h.2, fun h => ⟨rfl, h⟩⟩

theorem SameCells.write {m m' : Memory} {n : Nat} (h : SameCells n m m') (hm : Memory.wf m = true)
    (hm' : Memory.wf m' = true) (b : Byte) :
    SameCells (n + 1) (Memory.write m n b) (Memory.write m' n b) := by
  intro k hk
  rw [Memory.read_write hm, Memory.read_write hm']
  by_cases hkn : k = n
  · rw [if_pos hkn, if_pos hkn]
  · rw [if_neg hkn, if_neg hkn]
    exact h k (by omega)

theorem SameCells.mono {m m' : Memory} {n n' : Nat} (h : SameCells n m m') (hn : n' ≤ n) :
    SameCells n' m m' := fun k hk => h k (by omega)

section
variable {m : Memory} {s : State} (hcells : SameCells s.len.toNat s.buf m)
include hcells

theorem endsInCR_withBuf : endsInCR (withBuf m s) = endsInCR s := by
  rw [Bool.eq_iff_iff, endsInCR_iff, endsInCR_iff]
  refine and_congr_right fun hlen => ?_
  have hlast : Memory.read m (s.len.toNat - 1) = Memory.read s.buf (s.len.toNat - 1) :=
    hcells _ (Nat.sub_lt hlen Nat.one_pos)
  rw [withBuf_buf, withBuf_len, hlast]

theorem readerArm_withBuf (b : Byte) : readerArm b (withBuf m s) = readerArm b s := by
  unfold readerArm
  rw [endsInCR_withBuf hcells]
  rfl

theorem frameBody_withBuf : frameBody (withBuf m s) = frameBody s :=
  Memory.firstBytes_congr fun k hk => hcells k (Nat.lt_of_lt_of_le hk (Nat.sub_le _ _))

/-- A byte of `RX`, arm by arm: the completed frame and the overflow leave `len` at 0, the append writes
the cell `len` in both buffers, the discard leaves buffer and `len` alone (R65 to R69). -/
theorem feed_withBuf {b : Byte} {u : State} (hs : Memory.wf s.buf = true) (hm : Memory.wf m = true)
    (h : feed b s = .next u) :
    ∃ m', feed b (withBuf m s) = .next (withBuf m' u) ∧ SameCells u.len.toNat u.buf m' := by
  have harm := readerArm_withBuf hcells b
  rcases readerArm_cases b s with ⟨ha, -⟩ | ⟨ha, -⟩ | ⟨ha, -⟩ | ⟨ha, -⟩
  · rw [feed_complete ha] at h
    rw [feed_complete (harm.trans ha), frameBody_withBuf hcells]
    refine ⟨m, runCommand_withBuf m h, ?_⟩
    rw [runCommand_len_zero h (emptied_len s)]
    exact fun k hk => absurd hk (Nat.not_lt_zero k)
  · rw [feed_overflow ha] at h
    cases h
    exact ⟨m, feed_overflow (harm.trans ha), fun k hk => absurd hk (Nat.not_lt_zero k)⟩
  · rw [feed_append ha] at h
    cases h
    refine ⟨Memory.write m s.len.toNat b, feed_append (harm.trans ha), ?_⟩
    refine (hcells.write hs hm b).mono ?_
    rw [appendByte_len, BitVec.toNat_add]
    exact Nat.mod_le _ _
  · rw [feed_discard ha] at h
    cases h
    refine ⟨m, (feed_discard (harm.trans ha)).trans ?_, by simpa using hcells⟩
    unfold discardByte
    by_cases hend : s.dcr = true ∧ b = LF
    · rw [if_pos hend]; exact congrArg _ (if_pos hend)
    · rw [if_neg hend]; exact congrArg _ (if_neg hend)

end

theorem replay_withBuf (es : List Event) (m : Memory) (s : State) :
    es.foldl replayEvent (withBuf m s) = withBuf m (es.foldl replayEvent s) := by
  induction es generalizing s with
  | nil => rfl
  | cons e es ih =>
    have hone : replayEvent (withBuf m s) e = withBuf m (replayEvent s e) := by
      cases e with
      | busWrite f a d r => rw [replayEvent, popWriteAnswer_withBuf]; rfl
      | busRead f a n r => rw [replayEvent, popReadAnswer_withBuf]; rfl
      | _ => rfl
    rw [List.foldl_cons, List.foldl_cons, hone, ih]

/-- The reset that interrupts a step clears the buffer, so the buffers before it leave no trace. -/
theorem abandonAfter_withBuf (k : Nat) (m m' : Memory) (s u : State) :
    abandonAfter k (withBuf m s) (withBuf m' u) = abandonAfter k s u := by
  unfold abandonAfter
  rw [show (withBuf m' u).trace.drop (withBuf m s).trace.length = u.trace.drop s.trace.length from rfl,
    replay_withBuf]
  rfl

theorem step_withBuf {m : Memory} {s s' : State} (hs : Memory.wf s.buf = true)
    (hm : Memory.wf m = true) (hcells : SameCells s.len.toNat s.buf m) (h : step s = .next s') :
    ∃ m', step (withBuf m s) = .next (withBuf m' s') ∧ SameCells s'.len.toNat s'.buf m' := by
  rcases step_cases h with ⟨hin, rfl⟩ | ⟨b, rest, hin, hf⟩ | ⟨rest, hin, rfl⟩ |
    ⟨b, k, rest, u, hin, hf, rfl⟩
  · exact ⟨m, step_of_no_input (s := withBuf m s') hin, hcells⟩
  · obtain ⟨m', hf', hc'⟩ := feed_withBuf (s := withInputs rest s) hcells hs hm hf
    exact ⟨m', (step_rx (s := withBuf m s) hin).trans hf', hc'⟩
  · exact ⟨[], step_reset (s := withBuf m s) hin, fun _ _ => rfl⟩
  · obtain ⟨m', hf', -⟩ := feed_withBuf (s := withInputs rest s) hcells hs hm hf
    refine ⟨[], (step_rxThenReset (s := withBuf m s) hin).trans ?_, fun _ _ => rfl⟩
    have hfeed : feed b (withInputs rest (withBuf m s)) = .next (withBuf m' u) := hf'
    rw [hfeed]
    exact congrArg _ (abandonAfter_withBuf k m m' (withInputs rest s) u)

/-- Settles O22: the other state is the first with another buffer, and the step keeps it so, cells at and
above the new `len` aside. -/
theorem cellsBeyondLenAreNeverRead : Obligations.CellsBeyondLenAreNeverRead := by
  intro s t s' hs ht hagree hstep
  have heq : t = withBuf t.buf s := hagree.1
  obtain ⟨m', hstep', hcells⟩ := step_withBuf hs ht hagree.2 hstep
  exact ⟨withBuf m' s', by rw [heq]; exact hstep', agreeBelowLen_withBuf_iff.mpr hcells⟩

end Sys2Proof.Machine
end


/-! ### Which events an instruction records -/

section
namespace Sys2Proof.Machine

/-- The events between `exec`'s two states: those the instruction's rule lists, then its response. -/
theorem ExecShape.newEvents {i : Instr} {s t : State} {es : List Event} {fr : List Byte}
    (h : ExecShape i s t es fr) : newEvents s t = es ++ [.tx fr] := by
  have hfrom := h.grown.newEvents
  rwa [Machine.newEvents, written_trace] at hfrom

/-- Every event of an instruction is one its rule lists, or the response. -/
theorem exec_event_cases {i : Instr} {s t : State} (h : exec i s = .next t) {e : Event}
    (he : e ∈ newEvents s t) : Listed i s.cfg e ∨ ∃ fr, e = .tx fr := by
  obtain ⟨es, fr, hs⟩ := exec_shape_of_next h
  rw [hs.newEvents, List.mem_append, List.mem_singleton] at he
  exact he.imp (hs.listed e) fun htx => ⟨fr, htx⟩

/-- Settles O52: a listed event has the mode of `cfg`, and the response has none. -/
theorem busOperationsUseTheConfiguredMode : Obligations.BusOperationsUseTheConfiguredMode := by
  intro i s t h e he f hf
  rcases exec_event_cases h he with hl | ⟨fr, rfl⟩
  · exact hl.mode f hf
  · cases hf

/-- Settles O53: the rule of the instruction lists the event, or it is the response, which is of none of
these kinds. -/
theorem eventsOnlyOfTheCommandsThatListThem : Obligations.EventsOnlyOfTheCommandsThatListThem := by
  intro i s t h e he
  rcases exec_event_cases h he with hl | ⟨fr, rfl⟩
  · exact ⟨hl.pin, hl.delay, hl.read, hl.write, hl.notOverflow⟩
  · simp [Event.isPinWrite, Event.isDelay, Event.isBusRead, Event.isBusWrite]

/-- Settles O54: a bus read among the events is a listed one, answered within the request. -/
theorem noReadAnswerExceedsTheRequest : Obligations.NoReadAnswerExceedsTheRequest := by
  intro i s t h f a n r he
  rcases exec_event_cases h he with hl | ⟨fr, htx⟩
  · exact hl.answer f a n r rfl
  · cases htx

end Sys2Proof.Machine
end

/-! ### The canonical body decodes to its instruction -/

section
namespace Sys2Proof

theorem decode_write_body (bs : List Byte) : decode (100#8 :: bs) = decodeACD (100#8 :: bs) := by
  simp [decode, decodeCommand]

theorem decode_writeRead_body (bs : List Byte) : decode (102#8 :: bs) = decodeWR (102#8 :: bs) := by
  simp [decode, decodeCommand]

/-- Format ACD reads a WRITE back, and ignores what follows its data (R56). -/
theorem decode_write_append (addr : Byte) {data : List Byte} (h : data.length ≤ 255)
    (surplus : List Byte) :
    decode (encode (.write addr data) ++ surplus) = .instr (.write addr data) := by
  have hbody : encode (.write addr data) ++ surplus =
      100#8 :: addr :: BitVec.ofNat 8 data.length :: (data ++ surplus) := by simp [encode]
  have hcount := count_toNat h
  rw [hbody, decode_write_body]
  rcases decodeACD_cases (100#8 :: addr :: BitVec.ofNat 8 data.length :: (data ++ surplus)) with
    ⟨hshort, -⟩ | ⟨-, hdecode⟩
  · simp only [byteAt_two, hcount, List.length_cons, List.length_append] at hshort
    omega
  · rw [hdecode, byteAt_two, hcount, slice_three, byteAt_one]

/-- Format WR reads a WRITEREAD back, and ignores what follows its `rcount` (R57). -/
theorem decode_writeRead_append (addr rcount : Byte) {wdata : List Byte} (h : wdata.length ≤ 255)
    (surplus : List Byte) :
    decode (encode (.writeRead addr wdata rcount) ++ surplus) =
      .instr (.writeRead addr wdata rcount) := by
  have hbody : encode (.writeRead addr wdata rcount) ++ surplus =
      102#8 :: addr :: BitVec.ofNat 8 wdata.length :: (wdata ++ 101#8 :: rcount :: surplus) := by
    simp [encode]
  have hcount := count_toNat h
  have hmarker : byteAt (102#8 :: addr :: BitVec.ofNat 8 wdata.length ::
      (wdata ++ 101#8 :: rcount :: surplus)) (3 + wdata.length) = marker := by
    rw [Nat.add_comm 3]
    exact byteAt_append wdata 101#8 (rcount :: surplus)
  have hrcount : byteAt (102#8 :: addr :: BitVec.ofNat 8 wdata.length ::
      (wdata ++ 101#8 :: rcount :: surplus)) (4 + wdata.length) = rcount := by
    rw [Nat.add_comm 4]
    simpa using byteAt_append (wdata ++ [101#8]) rcount surplus
  rw [hbody, decode_writeRead_body]
  rcases decodeWR_cases (102#8 :: addr :: BitVec.ofNat 8 wdata.length ::
      (wdata ++ 101#8 :: rcount :: surplus)) with ⟨hbad, -⟩ | ⟨-, -, hdecode⟩
  · simp only [byteAt_two, hcount, hmarker, ne_eq, not_true_eq_false, or_false, List.length_cons,
      List.length_append] at hbad
    omega
  · rw [hdecode, byteAt_two, hcount, slice_three, byteAt_one, hrcount]

/-- The decoder undoes the encoder: the two counted formats by their lemmas, every other body has a
fixed length. -/
theorem decode_encode {i : Instr} (h : i.WellFormed) : decode (encode i) = .instr i := by
  cases i with
  | write addr data => simpa using decode_write_append addr (of_decide_eq_true h) []
  | writeRead addr wdata rcount =>
    simpa using decode_writeRead_append addr rcount (of_decide_eq_true h) []
  | _ => rfl

end Sys2Proof
end

/-! ### A frame on `RX` reaches the command loop -/

section
namespace Sys2Proof.Machine

theorem runSteps_one (s : State) : runSteps 1 s = step s := by
  cases hs : step s <;> simp [runSteps, hs]

/-- Running `m + n` steps, when the first `m` lead to `t`. -/
theorem runSteps_add {m : Nat} {s t : State} (h : runSteps m s = .next t) (n : Nat) :
    runSteps (m + n) s = runSteps n t := by
  induction m generalizing s with
  | zero =>
    cases h
    rw [Nat.zero_add]
  | succ m ih =>
    rw [Nat.succ_add]
    cases hs : step s with
    | next u =>
      rw [runSteps_succ m hs] at h
      rw [runSteps_succ (m + n) hs, ih h]
    | fault r => simp [runSteps, hs] at h
    | refused r => simp [runSteps, hs] at h

@[simp] theorem rxBytes_length (bs : List Byte) : (rxBytes bs).length = bs.length := List.length_map _

@[simp] theorem rxBytes_nil : rxBytes [] = [] := rfl

@[simp] theorem rxBytes_cons (b : Byte) (bs : List Byte) : rxBytes (b :: bs) = .rx b :: rxBytes bs :=
  rfl

@[simp] theorem rxBytes_append (bs cs : List Byte) : rxBytes (bs ++ cs) = rxBytes bs ++ rxBytes cs :=
  List.map_append

/-! #### Adjacent 13, 10 -/

theorem noTerminatorPair_cr_lf (xs ys : List Byte) :
    noTerminatorPair (xs ++ CR :: LF :: ys) = false := by
  induction xs with
  | nil => rfl
  | cons x xs ih =>
    cases xs with
    | nil => simp [noTerminatorPair]
    | cons y xs =>
      simp only [List.cons_append] at ih
      simp [noTerminatorPair, ih]

/-- A last byte that is no LF ends no adjacent pair. -/
theorem noTerminatorPair_concat {b : Byte} (hb : b ≠ LF) (xs : List Byte) :
    noTerminatorPair (xs ++ [b]) = noTerminatorPair xs := by
  induction xs with
  | nil => rfl
  | cons x xs ih =>
    cases xs with
    | nil => simp [noTerminatorPair, hb]
    | cons y xs =>
      simp only [List.cons_append] at ih
      simp [noTerminatorPair, ih]

/-! #### The bytes stored so far -/

/-- The frame in progress, `buf[0 : len-1]` (R12, R13). -/
def frameSoFar (s : State) : List Byte := Memory.firstBytes s.buf s.len.toNat

/-- The stored bytes, when the last one is a CR: the body and that CR (R66). -/
theorem frameSoFar_of_endsInCR {s : State} (h : endsInCR s = true) :
    frameSoFar s = frameBody s ++ [CR] := by
  obtain ⟨hlen, hcr⟩ := (endsInCR_iff s).mp h
  have hsucc := Memory.firstBytes_succ s.buf (s.len.toNat - 1)
  rwa [Nat.sub_add_cancel hlen, hcr] at hsucc

/-- The converse: a frame in progress that ends in CR passes the reader's test (R65). -/
theorem endsInCR_of_frameSoFar {s : State} {body : List Byte} (h : frameSoFar s = body ++ [CR]) :
    endsInCR s = true ∧ frameBody s = body := by
  have hlen : s.len.toNat = body.length + 1 := by
    simpa [frameSoFar] using congrArg List.length h
  rw [frameSoFar, hlen, Memory.firstBytes_succ] at h
  obtain ⟨hbody, hcr⟩ := List.append_inj' h rfl
  refine ⟨(endsInCR_iff s).mpr ⟨by omega, ?_⟩, ?_⟩
  · rw [hlen]
    exact List.singleton_inj.mp hcr
  · rw [frameBody, hlen]
    exact hbody

/-- A byte that would close a pair is the only one that completes a frame. -/
theorem not_complete_of_noTerminatorPair {s : State} {b : Byte} {bs : List Byte}
    (h : noTerminatorPair (frameSoFar s ++ b :: bs) = true) : ¬ (endsInCR s = true ∧ b = LF) := by
  rintro ⟨hcr, rfl⟩
  rw [frameSoFar_of_endsInCR hcr, List.append_assoc, List.singleton_append, noTerminatorPair_cr_lf]
    at h
  cases h

theorem appendByte_len_toNat {s : State} (h : s.len.toNat < s.cfg.cap.toNat) (b : Byte) :
    (appendByte b s).len.toNat = s.len.toNat + 1 := by
  have hcap := s.cfg.cap.isLt
  rw [appendByte_len, BitVec.toNat_add]
  exact Nat.mod_eq_of_lt (Nat.lt_of_le_of_lt h hcap)

theorem appendByte_wf {s : State} (hwf : Memory.wf s.buf = true)
    (h : s.len.toNat < s.cfg.cap.toNat) (b : Byte) : Memory.wf (appendByte b s).buf = true := by
  have hcap := s.cfg.cap.isLt
  exact Memory.wf_write hwf (by unfold Config.bufMax; omega) b

theorem frameSoFar_appendByte {s : State} (hwf : Memory.wf s.buf = true)
    (h : s.len.toNat < s.cfg.cap.toNat) (b : Byte) :
    frameSoFar (appendByte b s) = frameSoFar s ++ [b] := by
  rw [frameSoFar, appendByte_len_toNat h, appendByte_buf]
  exact Memory.firstBytes_append hwf _ b

/-- A byte that fits and does not complete the frame is stored (R65, R68). -/
theorem step_append {s : State} {b : Byte} {rest : List Input} (hin : s.inputs = .rx b :: rest)
    (hp : s.phase = .recv) (hn : ¬ (endsInCR s = true ∧ b = LF))
    (h : s.len.toNat < s.cfg.cap.toNat) : step s = .next (appendByte b (withInputs rest s)) :=
  (step_rx hin).trans (feed_append (s := withInputs rest s) (readerArm_append hp hn h))

/-- `t` is `s` after the bytes `bs` were stored and the inputs `rest` are still to come (R68). -/
structure Stored (s t : State) (bs : List Byte) (rest : List Input) : Prop where
  frame : t = { s with buf := t.buf, len := t.len, inputs := rest }
  wf : Memory.wf t.buf = true
  bytes : frameSoFar t = frameSoFar s ++ bs

/-- Bytes that fit and hold no terminator, the stored ones included, are stored one by one (R68). -/
theorem runSteps_store {bs : List Byte} {s : State} {rest : List Input}
    (hwf : Memory.wf s.buf = true) (hp : s.phase = .recv)
    (hroom : s.len.toNat + bs.length ≤ s.cfg.cap.toNat)
    (hpair : noTerminatorPair (frameSoFar s ++ bs) = true) (hin : s.inputs = rxBytes bs ++ rest) :
    ∃ t, runSteps bs.length s = .next t ∧ Stored s t bs rest := by
  induction bs generalizing s with
  | nil =>
    subst hin
    exact ⟨s, rfl, rfl, hwf, (List.append_nil _).symm⟩
  | cons b bs ih =>
    have hlen : s.len.toNat < s.cfg.cap.toNat := by
      rw [List.length_cons] at hroom
      omega
    let s' := appendByte b (withInputs (rxBytes bs ++ rest) s)
    have hstep : step s = .next s' :=
      step_append hin hp (not_complete_of_noTerminatorPair hpair) hlen
    have hbytes : frameSoFar s' = frameSoFar s ++ [b] := frameSoFar_appendByte hwf hlen b
    have hlen' : s'.len.toNat = s.len.toNat + 1 := appendByte_len_toNat (s := s) hlen b
    have hroom' : s'.len.toNat + bs.length ≤ s.cfg.cap.toNat := by
      rw [hlen', Nat.add_assoc, Nat.add_comm 1]
      exact hroom
    have hpair' : noTerminatorPair (frameSoFar s' ++ bs) = true := by
      rwa [hbytes, List.append_assoc]
    obtain ⟨t, ht, hframe, htwf, htbytes⟩ := ih (s := s')
      (appendByte_wf hwf hlen b) hp hroom' hpair' rfl
    exact ⟨t, (runSteps_succ _ hstep).trans ht, hframe, htwf, by simp [htbytes, hbytes]⟩

/-- A body that fits and holds no terminator, sent from between frames, is run whole (R66, R75(b)). -/
theorem runSteps_frame {body : List Byte} {s : State} {rest : List Input}
    (hwf : Memory.wf s.buf = true) (hp : s.phase = .recv) (hl : s.len = 0#8)
    (hroom : body.length + 1 ≤ s.cfg.cap.toNat) (hpair : noTerminatorPair body = true)
    (hin : s.inputs = rxBytes (body ++ terminator) ++ rest) :
    ∃ buf, Memory.wf buf = true ∧
      runSteps (body.length + 2) s = runCommand body { s with buf := buf, inputs := rest } := by
  have hempty : frameSoFar s = [] := by rw [frameSoFar, hl]; rfl
  obtain ⟨t, ht, hframe, hwf', hbytes⟩ :=
    runSteps_store (bs := body ++ [CR]) (rest := .rx LF :: rest) hwf hp (by simpa [hl] using hroom)
      (by rwa [hempty, List.nil_append, noTerminatorPair_concat (by decide)]) (by simpa using hin)
  rw [hempty, List.nil_append] at hbytes
  obtain ⟨hcr, hbody⟩ := endsInCR_of_frameSoFar hbytes
  have hphase : t.phase = .recv := (congrArg State.phase hframe).trans hp
  have harm : readerArm LF t = .complete :=
    (readerArm_complete_iff LF t).mpr ⟨hphase, (endsInCR_iff t).mp hcr, rfl⟩
  have hready : emptied (withInputs rest t) = { s with buf := t.buf, inputs := rest } := by
    have hfields := congrArg (fun u => emptied (withInputs rest u)) hframe
    simpa [emptied, withInputs, hl] using hfields
  have hlast : step t = runCommand body { s with buf := t.buf, inputs := rest } := by
    rw [step_rx (congrArg State.inputs hframe), ← hready, ← hbody]
    exact feed_complete (s := withInputs rest t) harm
  refine ⟨t.buf, hwf', ?_⟩
  have hrun := runSteps_add ht 1
  rw [runSteps_one, hlast] at hrun
  simpa using hrun

/-- The request frame of an instruction runs it (R50, R64, R81, R86). -/
theorem runSteps_encodeFrame {i : Instr} {s : State} {rest : List Input}
    (hwf : Memory.wf s.buf = true) (hp : s.phase = .recv) (hl : s.len = 0#8) (hi : i.WellFormed)
    (hroom : (encode i).length + 1 ≤ s.cfg.cap.toNat) (hpair : noTerminatorPair (encode i) = true)
    (hin : s.inputs = rxBytes (encodeFrame i) ++ rest) :
    ∃ buf, Memory.wf buf = true ∧
      runSteps (encodeFrame i).length s = exec i { s with buf := buf, inputs := rest } := by
  obtain ⟨buf, hbuf, hrun⟩ := runSteps_frame hwf hp hl hroom hpair hin
  refine ⟨buf, hbuf, ?_⟩
  rw [encodeFrame, List.length_append]
  exact hrun.trans (runCommand_instr (decode_encode hi))

/-! #### Pipelined frames -/

theorem written_phase_recv (i : Instr) {s : State} (h : s.phase = .recv) :
    (written i s).phase = .recv := by
  cases i with
  | setInputBufferSize p => rfl
  | _ => exact h

/-- An instruction run between frames leaves the block between frames, its buffer and `RX` untouched. -/
theorem exec_between_frames {i : Instr} {s t : State} (h : exec i s = .next t)
    (hp : s.phase = .recv) (hl : s.len = 0#8) :
    t.phase = .recv ∧ t.len = 0#8 ∧ t.buf = s.buf ∧ t.inputs = s.inputs := by
  obtain ⟨es, fr, hs⟩ := exec_shape_of_next h
  have hg := hs.grown
  exact ⟨hg.phase.trans (written_phase_recv i hp), hg.len.trans (written_len_zero i hl),
    hg.buf.trans (written_buf i s), hg.inputs.trans (written_inputs i s)⟩

/-- Settles O17: the first frame runs `i` and leaves the block between frames, with the second frame
next on `RX`; from there the second runs `j`. -/
theorem pipelinedFramesRunInOrder : Obligations.PipelinedFramesRunInOrder := by
  rintro s t i j rest ⟨hwf, -⟩ hp hl hi hroom hpair hin ht hj hroom' hpair'
  obtain ⟨buf1, hwf1, hrun1⟩ := runSteps_encodeFrame hwf hp hl hi hroom hpair hin
  have hexec := hrun1.symm.trans ht
  obtain ⟨hp', hl', hbuf, hin'⟩ := exec_between_frames hexec hp hl
  obtain ⟨buf2, -, hrun2⟩ :=
    runSteps_encodeFrame (hbuf ▸ hwf1) hp' hl' hj hroom' hpair' hin'
  exact ⟨buf1, buf2, hexec, (runSteps_add ht _).trans hrun2⟩

end Sys2Proof.Machine
end

/-! ### A request frame runs its instruction; surplus bytes of the counted formats -/

section
namespace Sys2Proof.Machine

/-- Settles O16: the frame reaches the command loop whole, and the decoder undoes the encoder. -/
theorem requestFrameRunsItsInstruction : Obligations.RequestFrameRunsItsInstruction := by
  rintro s i rest ⟨hwf, -⟩ hp hl hi hroom hpair hin
  obtain ⟨buf, -, hrun⟩ := runSteps_encodeFrame hwf hp hl hi hroom hpair hin
  exact ⟨buf, hrun⟩

/-- Settles O27: each counted format reads its fields back whatever follows them. -/
theorem surplusBytesOfTransfersAreIgnored : Obligations.SurplusBytesOfTransfersAreIgnored :=
  ⟨fun addr _ surplus h => decode_write_append addr h surplus,
    fun addr rcount _ surplus h => decode_writeRead_append addr rcount h surplus⟩

/-- Settles O30: the accepted bodies are canonical forms, so the decoder undoes the encoder on them; the
others are rejected by their length, their marker or their first byte. -/
theorem workedDecodesOfTheSpec : Obligations.WorkedDecodesOfTheSpec :=
  ⟨decode_encode (i := .write 23#8 [65#8]) rfl, rfl, decode_encode (i := .read 23#8 2#8) rfl,
    decode_encode (i := .writeRead 80#8 [0#8] 2#8) rfl, rfl,
    decode_encode (i := .checkDevice 33#8) rfl, decode_encode (i := .deviceList) rfl, rfl,
    decode_encode (i := .setInputBufferSize 64#8) rfl, rfl⟩

/-- A row that is no command raises `NoCommand` (R63, R83). -/
theorem exec_of_not_isCommand {i : Instr} (h : i.isCommand = false) (s : State) :
    exec i s = .next (takeException .noCommand s) := by
  cases i with
  | error | messageError | noCommand | info => rfl
  | _ => cases h

/-- Settles O33: each of the four rows is no command, and `NoCommand` sends its frame and does nothing
else. -/
theorem rowsThatAreNotCommandsRaiseNoCommand : Obligations.RowsThatAreNotCommandsRaiseNoCommand := by
  intro s i h
  have hrow : i.isCommand = false := by rcases h with rfl | rfl | rfl | rfl <;> rfl
  exact exec_of_not_isCommand hrow s

end Sys2Proof.Machine
end

/-! ### A decoded body and the canonical form of its instruction -/

section
namespace Sys2Proof

/-- The rows whose formats ignore bytes after the last field (R56, R57, R83). -/
def IgnoresSurplus (i : Instr) : Prop :=
  i.isCommand = false ∨ (∃ a d, i = .write a d) ∨ ∃ a w n, i = .writeRead a w n

/-- `body` is the canonical body of the well-formed `i`, and surplus bytes where the format of `i` ignores
them. -/
def Represents (body : List Byte) (i : Instr) : Prop :=
  i.WellFormed ∧ ∃ surplus, body = encode i ++ surplus ∧ (surplus ≠ [] → IgnoresSurplus i)

/-- Reading a body offset by offset gives the body. -/
theorem map_byteAt_range (body : List Byte) : (List.range body.length).map (byteAt body) = body :=
  List.ext_getElem (by simp) fun k _ hk => by simp [byteAt, hk]

/-- The exact formats: opcode, and one byte for each operand (R53, R54, R55, R58). -/
theorem represents_of_exactly {m : Nat} {body : List Byte} {i j : Instr}
    (h : exactly (m + 1) body j = .instr i) (hop : (byteAt body 0).toNat = j.opcode.toNat)
    (henc : encode j = j.opcode :: (List.range m).map fun k => byteAt body (k + 1))
    (hwf : j.WellFormed) : Represents body i := by
  rcases exactly_cases (m + 1) body j with ⟨hlen, hdecode⟩ | ⟨-, hdecode⟩
  · cases hdecode.symm.trans h
    refine ⟨hwf, [], ?_, fun hne => absurd rfl hne⟩
    cases body with
    | nil => cases hlen
    | cons op rest =>
      cases Nat.succ.inj hlen
      rw [List.append_nil, henc, ← BitVec.eq_of_toNat_eq hop]
      exact congrArg _ (map_byteAt_range rest).symm
  · cases hdecode.symm.trans h

/-- The rows that are no commands: one byte, the rest is not examined (R83). -/
theorem represents_of_row {body : List Byte} {j : Instr} (hne : body.length ≠ 0)
    (hop : (byteAt body 0).toNat = j.opcode.toNat) (henc : encode j = [j.opcode])
    (hwf : j.WellFormed) (hrow : j.isCommand = false) : Represents body j := by
  cases body with
  | nil => exact absurd rfl hne
  | cons op rest =>
    refine ⟨hwf, rest, ?_, fun _ => .inl hrow⟩
    rw [henc, ← BitVec.eq_of_toNat_eq hop]
    rfl

/-- A body that is at least as long as its count field says has the fields of a counted format. -/
theorem counted_fields {body : List Byte} {n : Nat} (hlen : 3 + (byteAt body 2).toNat + n ≤ body.length) :
    ∃ addr data rest, body = byteAt body 0 :: addr :: BitVec.ofNat 8 data.length :: (data ++ rest) ∧
      data.length ≤ 255 ∧ n ≤ rest.length := by
  rcases body with _ | ⟨op, _ | ⟨addr, _ | ⟨count, bs⟩⟩⟩
  · simp at hlen
  · simp at hlen; omega
  · simp at hlen; omega
  · simp only [byteAt_two, List.length_cons] at hlen
    have hcount : (bs.take count.toNat).length = count.toNat := List.length_take_of_le (by omega)
    refine ⟨addr, bs.take count.toNat, bs.drop count.toNat, ?_, ?_, ?_⟩
    · simp [hcount]
    · have := count.isLt
      omega
    · rw [List.length_drop]
      omega

/-- Format ACD (R56). -/
theorem represents_of_decodeACD {body : List Byte} {i : Instr} (h : decodeACD body = .instr i)
    (hop : (byteAt body 0).toNat = 100) : Represents body i := by
  rcases decodeACD_cases body with ⟨-, hreject⟩ | ⟨hlen, -⟩
  · cases hreject.symm.trans h
  · obtain ⟨addr, data, surplus, hbody, hdata, -⟩ := counted_fields (n := 0) hlen
    have hcanon : body = encode (.write addr data) ++ surplus := by
      rw [hbody, BitVec.eq_of_toNat_eq (y := 100#8) hop]
      rfl
    have hdecode := decode_write_append addr hdata surplus
    rw [hcanon] at h
    cases h.symm.trans ((decode_write_body _).symm.trans hdecode)
    exact ⟨decide_eq_true hdata, surplus, hcanon, fun _ => .inr (.inl ⟨addr, data, rfl⟩)⟩

/-- Format WR (R57, R62): the byte behind the counted data is the marker. -/
theorem represents_of_decodeWR {body : List Byte} {i : Instr} (h : decodeWR body = .instr i)
    (hop : (byteAt body 0).toNat = 102) : Represents body i := by
  rcases decodeWR_cases body with ⟨-, hreject⟩ | ⟨hlen, hmarker, -⟩
  · cases hreject.symm.trans h
  · obtain ⟨addr, wdata, rest, hbody, hwdata, hrest⟩ :=
      counted_fields (body := body) (n := 2) (by omega)
    obtain ⟨m, rcount, surplus, rfl⟩ : ∃ m rcount surplus, rest = m :: rcount :: surplus := by
      match rest, hrest with
      | m :: rcount :: surplus, _ => exact ⟨m, rcount, surplus, rfl⟩
    have hm : m = marker := by
      rw [hbody, byteAt_two, count_toNat hwdata, Nat.add_comm 3] at hmarker
      exact (byteAt_append wdata m (rcount :: surplus)).symm.trans hmarker
    have hcanon : body = encode (.writeRead addr wdata rcount) ++ surplus := by
      rw [hbody, BitVec.eq_of_toNat_eq (y := 102#8) hop, hm]
      simp [encode, marker]
    have hdecode := decode_writeRead_append addr rcount hwdata surplus
    rw [hcanon] at h
    cases h.symm.trans ((decode_writeRead_body _).symm.trans hdecode)
    exact ⟨decide_eq_true hwdata, surplus, hcanon, fun _ => .inr (.inr ⟨addr, wdata, rcount, rfl⟩)⟩

/-- The inversion of R81's decoder, arm by arm. -/
theorem represents_of_decodeCommand {body : List Byte} {i : Instr}
    (h : decodeCommand body = .instr i) : Represents body i := by
  unfold decodeCommand at h
  split at h
  · cases h
  · split at h <;> rename_i hop
    · exact represents_of_decodeACD h hop
    · exact represents_of_exactly h hop rfl rfl
    · exact represents_of_decodeWR h hop
    iterate 10 exact represents_of_exactly h hop rfl rfl
    cases h

/-- The inversion of the decoder over all rows. -/
theorem represents_of_decode {body : List Byte} {i : Instr} (h : decode body = .instr i) :
    Represents body i := by
  unfold decode at h
  split at h
  · cases h
  · next hne =>
    split at h <;> rename_i hop
    · cases h; exact represents_of_row hne hop rfl rfl rfl
    · cases h; exact represents_of_row hne hop rfl rfl rfl
    · cases h; exact represents_of_row hne hop rfl rfl rfl
    · cases h; exact represents_of_row hne hop rfl rfl rfl
    · exact represents_of_decodeCommand h

/-- Settles O26: `Represents` is the statement's conclusion, and each arm of the decoder gives it. -/
theorem decodedBodyBeginsWithItsCanonicalForm : Obligations.DecodedBodyBeginsWithItsCanonicalForm :=
  fun _ _ h => represents_of_decode h

end Sys2Proof
end

/-! ### The client cuts every response -/

section
namespace Sys2Proof.Machine

/-- The client's procedure cuts exactly `fr` off the stream, whatever follows it (R61, R161). -/
def CutExactly (fr : List Byte) : Prop :=
  ∀ following, splitResponse (fr ++ following) = some (fr, following)

theorem takeClosed_append {n : Nat} {payload : List Byte} (h : payload.length = n)
    (following : List Byte) :
    takeClosed n (payload ++ terminator ++ following) = some (payload ++ terminator, following) := by
  subst h
  have hclosed : (payload ++ terminator).length = payload.length + 2 := List.length_append
  have hterm : ((payload ++ terminator ++ following).drop payload.length).take 2 = terminator := by
    rw [List.append_assoc, List.drop_left]
    rfl
  rw [takeClosed, if_pos hterm, ← hclosed, List.take_left, List.drop_left]

/-- A status response has a fixed length (R121). -/
theorem cutExactly_statusCode {op : Byte} (h : op = 100#8 ∨ op = 103#8) (addr : Byte)
    (st : BusStatus) : CutExactly (encodeResponse op (.statusCode addr st)) := by
  intro following
  rcases h with rfl | rfl
  · exact takeClosed_append (payload := [100#8, addr, statusByte st]) rfl following
  · exact takeClosed_append (payload := [103#8, addr, statusByte st]) rfl following

/-- The third byte of a read response counts the data (R122). -/
theorem cutExactly_readPayload {op : Byte} (h : op = 101#8 ∨ op = 102#8) (addr : Byte)
    {d : List Byte} (hd : d.length ≤ 255) : CutExactly (encodeResponse op (.readPayload addr d)) := by
  intro following
  have hlen : ([op, addr, countByte d] ++ d).length = 3 + (countByte d).toNat := by
    rw [countByte, count_toNat hd, List.length_append]
    rfl
  rcases h with rfl | rfl
  · exact takeClosed_append hlen following
  · exact takeClosed_append hlen following

/-- The second byte of a device list counts the addresses (R123). -/
theorem cutExactly_deviceList {found : List Byte} (h : found.length ≤ 255) :
    CutExactly (encodeResponse 104#8 (.deviceList found)) := by
  intro following
  have hlen : ([104#8, countByte found] ++ found).length = 2 + (countByte found).toNat := by
    rw [countByte, count_toNat h, List.length_append]
    rfl
  exact takeClosed_append hlen following

/-- The look-ahead after 106: a status byte, 13 included, is not followed by 10 but by the terminator's
13 (R126, R161). -/
theorem cutExactly_errorFrame (st : Option Byte) : CutExactly (errorFrame st) := by
  intro following
  cases st with
  | none => exact takeClosed_append (payload := [opERROR]) rfl following
  | some b =>
    have hne : CR ≠ LF := by decide
    have hlook : ¬ [b, CR] = terminator := by simp [hne]
    exact (if_neg hlook).trans (takeClosed_append (payload := [opERROR, b]) rfl following)

theorem cutExactly_messageErrorFrame : CutExactly messageErrorFrame :=
  takeClosed_append (payload := [opMESSAGEERROR]) rfl

theorem cutExactly_noCommandFrame : CutExactly noCommandFrame :=
  takeClosed_append (payload := [opNOCOMMAND]) rfl

/-- The normal response of every command. -/
theorem cutExactly_of_answers {i : Instr} {r : Result} (h : Answers i r) :
    CutExactly (encodeResponse i.opcode r) := by
  cases i with
  | write addr data => obtain ⟨st, rfl⟩ := h; exact cutExactly_statusCode (.inl rfl) addr st
  | checkDevice addr => obtain ⟨st, rfl⟩ := h; exact cutExactly_statusCode (.inr rfl) addr st
  | read addr count =>
    obtain ⟨d, rfl, hd⟩ := h
    exact cutExactly_readPayload (.inl rfl) addr (hd.trans (Nat.le_of_lt_succ count.isLt))
  | writeRead addr wdata rcount =>
    obtain ⟨d, rfl, hd⟩ := h
    exact cutExactly_readPayload (.inr rfl) addr (hd.trans (Nat.le_of_lt_succ rcount.isLt))
  | deviceList =>
    obtain ⟨found, rfl, hsub⟩ := h
    have hlen := scanAddresses_length ▸ hsub.length_le
    exact cutExactly_deviceList (hlen.trans (by decide))
  | error | messageError | noCommand | info => exact h.elim
  | _ => cases h; exact takeClosed_append (payload := [_]) rfl

theorem ExecShape.cutExactly {i : Instr} {s t : State} {es : List Event} {fr : List Byte}
    (h : ExecShape i s t es fr) : CutExactly fr := by
  rcases h.response with ⟨-, r, -, rfl, hanswers | ⟨st, rfl⟩⟩ | ⟨-, -, rfl⟩
  · exact cutExactly_of_answers hanswers
  · exact cutExactly_errorFrame st
  · exact cutExactly_noCommandFrame

/-- The response is the last event of the trace. -/
theorem ExecShape.getLast?_trace {i : Instr} {s t : State} {es : List Event} {fr : List Byte}
    (h : ExecShape i s t es fr) : t.trace.getLast? = some (.tx fr) := by
  rw [h.grown.trace, ← List.append_assoc, List.getLast?_concat]

theorem cutExactly_of_exec {i : Instr} {s t : State} {fr : List Byte} (h : exec i s = .next t)
    (hlast : t.trace.getLast? = some (.tx fr)) : CutExactly fr := by
  obtain ⟨es, fr', hs⟩ := exec_shape_of_next h
  cases hs.getLast?_trace.symm.trans hlast
  exact hs.cutExactly

theorem cutExactly_of_runCommand {body : List Byte} {s t : State} {fr : List Byte}
    (h : runCommand body s = .next t) (hlast : t.trace.getLast? = some (.tx fr)) : CutExactly fr := by
  rcases runCommand_cases body s with ⟨i, -, hrun⟩ | ⟨fr', hfr, hrun⟩
  · exact cutExactly_of_exec (hrun.symm.trans h) hlast
  · cases hrun.symm.trans h
    cases List.getLast?_concat.symm.trans hlast
    rcases hfr with rfl | rfl
    · exact cutExactly_messageErrorFrame
    · exact cutExactly_noCommandFrame

/-- Settles O36: whatever runs, the response it closes the trace with is a frame of known length. -/
theorem clientCutsEveryResponseByItsFields : Obligations.ClientCutsEveryResponseByItsFields :=
  ⟨fun _ _ _ _ following h hlast => cutExactly_of_runCommand h hlast following,
    fun _ _ _ _ following h hlast => cutExactly_of_exec h hlast following⟩

end Sys2Proof.Machine
end

/-! ### The reader invariant -/

section
namespace Sys2Proof.Machine

/-- With no byte stored and none discarded the invariant holds whatever the capacity is (R75(a)). -/
theorem inv_of_len_zero {s : State} (hwf : Memory.wf s.buf = true) (hl : s.len = 0#8)
    (hd : s.dcr = false) : Inv s := by
  refine ⟨hwf, ?_, fun _ => hl, fun _ => hd⟩
  rw [hl]
  exact Nat.zero_le _

/-- Settles O4: reset leaves the block between frames, with an empty buffer. -/
theorem readerInvariantAtReset : Obligations.ReaderInvariantAtReset :=
  inv_of_len_zero rfl rfl rfl

theorem inv_applyReset (s : State) : Inv (applyReset s) := inv_of_len_zero rfl rfl rfl

/-- A completed frame leaves the block between frames, SETINPUTBUFFERSIZE included, so a lowered capacity
breaks no bound on `len` (R73, R117). -/
theorem inv_of_runCommand {body : List Byte} {s t : State} (h : runCommand body s = .next t)
    (hwf : Memory.wf s.buf = true) (hp : s.phase = .recv) (hl : s.len = 0#8) (hd : s.dcr = false) :
    Inv t := by
  obtain ⟨t', es, fr, ht, -, -, -, hbuf, hreader, -⟩ := runCommand_answers body s
  cases h.symm.trans ht
  obtain ⟨-, hl', hd'⟩ := hreader hp hl hd
  exact inv_of_len_zero (hbuf ▸ hwf) hl' hd'

theorem inv_takeOverflow {s : State} (hs : Inv s) (b : Byte) : Inv (takeException (.overflow b) s) := by
  obtain ⟨hwf, -⟩ := hs
  exact ⟨hwf, Nat.zero_le _, fun _ => rfl, fun hp => nomatch hp⟩

theorem inv_appendByte {s : State} (hs : Inv s) (hp : s.phase = .recv)
    (h : s.len.toNat < s.cfg.cap.toNat) (b : Byte) : Inv (appendByte b s) := by
  obtain ⟨hwf, -, -, hdcr⟩ := hs
  refine ⟨appendByte_wf hwf h b, ?_, fun hd => ?_, hdcr⟩
  · rw [appendByte_len_toNat h]
    exact h
  · rw [appendByte_phase, hp] at hd
    cases hd

theorem inv_discardByte {s : State} (hs : Inv s) (hp : s.phase = .discard) (b : Byte) :
    Inv (discardByte b s) := by
  obtain ⟨hwf, hcap, hlen, -⟩ := hs
  by_cases hend : s.dcr = true ∧ b = LF
  · rw [discardByte_ends s b hend]
    exact inv_of_len_zero hwf (hlen hp) rfl
  · rw [discardByte_goes_on s b hend]
    exact ⟨hwf, hcap, hlen, fun hr => nomatch hp.symm.trans hr⟩

/-- Every arm of the reader keeps the invariant (R65 to R69). -/
theorem inv_of_feed {b : Byte} {s t : State} (hs : Inv s) (h : feed b s = .next t) : Inv t := by
  rcases readerArm_cases b s with ⟨ha, hp, -⟩ | ⟨ha, -⟩ | ⟨ha, hp, -, hroom⟩ | ⟨ha, hp⟩
  · obtain ⟨hwf, -, -, hdcr⟩ := hs
    rw [feed_complete ha] at h
    exact inv_of_runCommand h hwf hp rfl (hdcr hp)
  · rw [feed_overflow ha] at h
    cases h
    exact inv_takeOverflow hs b
  · rw [feed_append ha] at h
    cases h
    exact inv_appendByte hs hp hroom b
  · rw [feed_discard ha] at h
    cases h
    exact inv_discardByte hs hp b

/-- Settles O5: by what is first among the inputs. A byte goes through one arm of the reader; a reset,
also one that interrupts a step, leaves the reset state. -/
theorem readerInvariantKeptByEveryStep : Obligations.ReaderInvariantKeptByEveryStep := by
  intro s t hs h
  rcases step_cases h with ⟨-, rfl⟩ | ⟨b, rest, -, hf⟩ | ⟨rest, -, rfl⟩ | ⟨b, k, rest, u, -, -, rfl⟩
  · exact hs
  · exact inv_of_feed (s := withInputs rest s) hs hf
  · exact inv_applyReset _
  · exact inv_applyReset _

end Sys2Proof.Machine
end

/-! ### One byte of `RX`, arm by arm -/

section
namespace Sys2Proof.Machine

/-- The condition "not complete" of R65 as the statements write it out. -/
theorem not_complete_iff (b : Byte) (s : State) : ¬ (endsInCR s = true ∧ b = LF) ↔
    ¬ (1 ≤ s.len.toNat ∧ Memory.read s.buf (s.len.toNat - 1) = 13#8 ∧ b = 10#8) := by
  rw [endsInCR_iff, and_assoc]

/-- The LF after a stored CR runs the command loop, with the LF taken and `len` 0 (R66, R86). -/
theorem step_complete {s : State} {rest : List Input} (hin : s.inputs = .rx LF :: rest)
    (hp : s.phase = .recv) (hcr : endsInCR s = true) :
    step s = runCommand (frameBody s) { s with inputs := rest, len := 0#8 } := by
  have harm : readerArm LF (withInputs rest s) = .complete :=
    (readerArm_complete_iff LF (withInputs rest s)).mpr ⟨hp, (endsInCR_iff s).mp hcr, rfl⟩
  exact (step_rx hin).trans (feed_complete harm)

/-- A byte that does not complete the frame and finds no room is an `Overflow` (R67). -/
theorem step_overflow {s : State} {b : Byte} {rest : List Input} (hin : s.inputs = .rx b :: rest)
    (hp : s.phase = .recv) (hn : ¬ (endsInCR s = true ∧ b = LF))
    (h : s.cfg.cap.toNat ≤ s.len.toNat) :
    step s = .next (takeException (.overflow b) (withInputs rest s)) :=
  (step_rx hin).trans (feed_overflow (s := withInputs rest s) (readerArm_overflow hp hn h))

theorem step_discard {s : State} {b : Byte} {rest : List Input} (hin : s.inputs = .rx b :: rest)
    (hp : s.phase = .discard) : step s = .next (discardByte b (withInputs rest s)) :=
  (step_rx hin).trans (feed_discard (s := withInputs rest s) (readerArm_discard hp))

/-- The first bytes of the buffer, read by offset. -/
theorem Memory.getD_firstBytes (m : Memory) {n k : Nat} (h : k < n) :
    (Memory.firstBytes m n).getD k 0#8 = Memory.read m k := by
  simp [Memory.firstBytes, List.getD_eq_getElem?_getD, h]

/-- Settles O9: the completed frame reaches the command loop, which runs what its body decodes to. -/
theorem stepRunsTheDecodedInstruction : Obligations.StepRunsTheDecodedInstruction := by
  intro s rest i hin hp hlen hcr hdecode
  rw [step_complete hin hp ((endsInCR_iff s).mpr ⟨hlen, hcr⟩)]
  exact runCommand_instr hdecode

/-- Settles O11: the body is `frameBody`, byte for byte the cells before the stored CR. -/
theorem terminatorCompletesTheFrame : Obligations.TerminatorCompletesTheFrame := by
  intro s rest hin hp hlen hcr
  refine ⟨frameBody s, Memory.firstBytes_length _ _, fun n hn => ?_,
    step_complete hin hp ((endsInCR_iff s).mpr ⟨hlen, hcr⟩)⟩
  exact Memory.getD_firstBytes s.buf hn

/-- Settles O12: the overflow arm, with the exception's effect written out. -/
theorem byteAtAFullBufferOverflows : Obligations.ByteAtAFullBufferOverflows := by
  intro s b rest hin hp hfull hn
  exact step_overflow hin hp ((not_complete_iff b s).mpr hn) hfull

/-- Settles O13: the append arm writes cell `len` and no other. -/
theorem appendStoresTheByteAtLen : Obligations.AppendStoresTheByteAtLen := by
  intro s b rest hwf hin hp hroom hn
  refine ⟨_, step_append hin hp ((not_complete_iff b s).mpr hn) hroom,
    appendByte_len_toNat (s := withInputs rest s) hroom b, ?_, fun n hne => ?_, rfl⟩
  · exact (Memory.read_write hwf _ _ b).trans (if_pos rfl)
  · exact (Memory.read_write hwf _ n b).trans (if_neg hne)

/-- Settles O14: the discard arm, at the LF that ends the discard and at any other byte. -/
theorem discardDropsBytesUntilTheTerminator : Obligations.DiscardDropsBytesUntilTheTerminator := by
  intro s b rest hin hp
  rw [step_discard hin hp]
  exact ⟨fun hend => congrArg _ (discardByte_ends (withInputs rest s) b hend),
    fun hgo => congrArg _ (discardByte_goes_on (withInputs rest s) b hgo)⟩

end Sys2Proof.Machine
end

/-! ### Whole frames: delivered, overflowing, and placed by the host -/

section
namespace Sys2Proof.Machine

/-- Settles O15: the bytes fit, so they are stored, and the terminator runs them. -/
theorem deliverableBodyReachesTheCommandLoop : Obligations.DeliverableBodyReachesTheCommandLoop := by
  rintro s body rest ⟨hwf, -⟩ hp hl hroom hpair hin
  obtain ⟨buf, -, hrun⟩ := runSteps_frame hwf hp hl hroom hpair hin
  exact ⟨buf, hrun⟩

theorem noTerminatorPair_of_append {xs ys : List Byte} (h : noTerminatorPair (xs ++ ys) = true) :
    noTerminatorPair xs = true := by
  induction xs using noTerminatorPair.induct with
  | case1 => rfl
  | case2 => rfl
  | case3 a b xs ih =>
    simp only [List.cons_append, noTerminatorPair, Bool.and_eq_true] at h ih ⊢
    exact ⟨h.1, ih h.2⟩

theorem frameSoFar_length (s : State) : (frameSoFar s).length = s.len.toNat :=
  Memory.firstBytes_length _ _

/-- Settles O18: the first `cap` bytes are stored and fill the buffer; the byte after them does not
complete the frame, so it overflows. -/
theorem byteCapPlusOneOverflows : Obligations.ByteCapPlusOneOverflows := by
  rintro s bs b rest ⟨hwf, -⟩ hp hl hcap hpair hin
  have hempty : frameSoFar s = [] := by rw [frameSoFar, hl]; rfl
  obtain ⟨t, ht, hframe, -, hbytes⟩ :=
    runSteps_store (bs := bs) (rest := .rx b :: rest) hwf hp (by simp [hl, hcap])
      (by rw [hempty]; exact noTerminatorPair_of_append hpair) (by simpa using hin)
  rw [hempty, List.nil_append] at hbytes
  have hfull : t.cfg.cap.toNat ≤ t.len.toNat := by
    rw [← frameSoFar_length, hbytes, hcap, congrArg State.cfg hframe]
  have hlast : step t = .next (takeException (.overflow b) (withInputs rest t)) :=
    step_overflow (congrArg State.inputs hframe) ((congrArg State.phase hframe).trans hp)
      (not_complete_of_noTerminatorPair (bs := []) (by rwa [hbytes])) hfull
  refine ⟨t.buf, (runSteps_add ht 1).trans ?_⟩
  rw [runSteps_one, hlast, hframe, hl]
  rfl

/-! #### The host's fetch word -/

/-- Consecutive cells written from 0 on read back as the bytes written. -/
theorem Memory.firstBytes_writeAll {m : Memory} (hwf : Memory.wf m = true) {bs : List Byte}
    (h : bs.length ≤ Config.bufMax) :
    Memory.firstBytes (Memory.writeAll m 0 bs) bs.length = bs := by
  refine List.ext_getElem (Memory.firstBytes_length _ _) fun k _ hk => ?_
  have hread := Memory.read_writeAll hwf bs (n := 0) (by rwa [Nat.zero_add]) k
  rw [if_pos ⟨Nat.zero_le k, by rwa [Nat.zero_add]⟩, Nat.sub_zero] at hread
  simpa [Memory.firstBytes, List.getD_eq_getElem?_getD, hk] using hread

/-- `loadFrame` leaves the body and the CR of its terminator received. -/
theorem frameSoFar_loadFrame {body : List Byte} {s : State} (hwf : Memory.wf s.buf = true)
    (h : body.length ≤ 254) : frameSoFar (loadFrame body s) = body ++ [CR] := by
  have hlen : (loadFrame body s).len.toNat = (body ++ [CR]).length := by
    simp [loadFrame, List.take_of_length_le h]
    omega
  have hbuf : (loadFrame body s).buf = Memory.writeAll s.buf 0 (body ++ [CR]) := by
    simp [loadFrame, List.take_of_length_le h]
  rw [frameSoFar, hlen, hbuf]
  exact Memory.firstBytes_writeAll hwf (by simpa [Config.bufMax, Nat.lt_succ_iff] using h)

theorem decode_of_decodeTableWord {nbits w : Nat} {i : Instr} (h : decodeTableWord nbits w = some i) :
    decode (tableBody nbits w) = .instr i := by
  unfold decodeTableWord at h
  cases hd : decode (tableBody nbits w) with
  | instr j => simpa [hd] using h
  | messageError => simp [hd] at h
  | noCommand => simp [hd] at h

/-- Settles O10: the placed frame is complete but for its LF, which the next step takes. -/
theorem fetchedTableWordRunsItsInstruction : Obligations.FetchedTableWordRunsItsInstruction := by
  intro s nbits w i hwf hlen hword
  obtain ⟨hcr, hbody⟩ := endsInCR_of_frameSoFar (frameSoFar_loadFrame hwf hlen)
  have hstep := step_complete (s := s.withFetchWord nbits w) rfl rfl hcr
  have hframe : frameBody (s.withFetchWord nbits w) = tableBody nbits w := hbody
  rw [hframe, runCommand_instr (decode_of_decodeTableWord hword)] at hstep
  exact hstep

end Sys2Proof.Machine
end

/-! ### The arms of R81, and what each answers -/

section
namespace Sys2Proof

/-- Settles O25: the decoder undoes the encoder, format by format. -/
theorem decodeOfEncodeIsTheInstruction : Obligations.DecodeOfEncodeIsTheInstruction :=
  fun _ h => decode_encode h

/-- The first bytes of the thirteen commands a client may send (R51, R81). -/
def commandOpcodes : List Nat := [100, 101, 102, 103, 104, 105, 110, 111, 112, 113, 114, 115, 116]

/-- The exact formats N, A and P, and AC: a first byte, and the one length its body may have (R82). -/
def HasExactLength (op n : Nat) : Prop :=
  (op ∈ [104, 105, 110, 111] ∧ n = 1) ∨ (op ∈ [103, 112, 113, 114, 115, 116] ∧ n = 2) ∨
    (op = 101 ∧ n = 3)

theorem HasExactLength.mem_commandOpcodes {op n : Nat} (h : HasExactLength op n) :
    op ∈ commandOpcodes := by
  simp only [HasExactLength, commandOpcodes, List.mem_cons, List.not_mem_nil, or_false] at h ⊢
  omega

/-- The arms of R81: which format the first byte of `body` selects, and the decoder's answer `d` there. -/
inductive Dispatched : List Byte → Decoded → Prop where
  | empty : Dispatched [] .messageError
  | acd {op : Byte} {rest : List Byte} (hop : op.toNat = 100) :
      Dispatched (op :: rest) (decodeACD (op :: rest))
  | wr {op : Byte} {rest : List Byte} (hop : op.toNat = 102) :
      Dispatched (op :: rest) (decodeWR (op :: rest))
  | fixed {op : Byte} {rest : List Byte} {n : Nat} {i : Instr} (hlen : HasExactLength op.toNat n)
      (hi : i.isCommand = true) : Dispatched (op :: rest) (exactly n (op :: rest) i)
  | other {op : Byte} {rest : List Byte} (hop : op.toNat ∉ commandOpcodes) :
      Dispatched (op :: rest) .noCommand

/-- The inversion of R81's decoder. -/
theorem dispatched_decodeCommand (body : List Byte) : Dispatched body (decodeCommand body) := by
  cases body with
  | nil => exact .empty
  | cons op rest =>
    have hne : (op :: rest).length ≠ 0 := Nat.succ_ne_zero _
    rw [decodeCommand, if_neg hne, byteAt_zero]
    split
    case h_1 hop => exact .acd hop
    case h_3 hop => exact .wr hop
    case h_14 =>
      refine .other ?_
      simp only [commandOpcodes, List.mem_cons, List.not_mem_nil, or_false, not_or]
      and_intros <;> assumption
    all_goals
      rename_i hop
      exact .fixed (by simp [HasExactLength, hop]) rfl

/-! #### When each format rejects (R82, R84) -/

theorem exactly_eq_messageError_iff {n : Nat} {body : List Byte} {i : Instr} :
    exactly n body i = .messageError ↔ body.length ≠ n := by
  rcases exactly_cases n body i with ⟨hlen, hd⟩ | ⟨hlen, hd⟩ <;> simp [hd, hlen]

theorem decodeACD_eq_messageError_iff {body : List Byte} :
    decodeACD body = .messageError ↔
      body.length < 3 ∨ body.length - 3 < (byteAt body 2).toNat := by
  rcases decodeACD_cases body with ⟨hbad, hd⟩ | ⟨hlen, hd⟩
  · exact iff_of_true hd hbad
  · refine iff_of_false (by simp [hd]) ?_
    omega

theorem decodeWR_eq_messageError_iff {body : List Byte} :
    decodeWR body = .messageError ↔
      body.length < 5 ∨ body.length < 5 + (byteAt body 2).toNat ∨
        (byteAt body (3 + (byteAt body 2).toNat)).toNat ≠ 101 := by
  have hmarker (b : Byte) : b ≠ marker ↔ b.toNat ≠ 101 := BitVec.toNat_ne_iff_ne.symm
  rw [← hmarker]
  rcases decodeWR_cases body with ⟨hbad, hd⟩ | ⟨hlen, hm, hd⟩
  · exact iff_of_true hd hbad
  · refine iff_of_false (by simp [hd]) ?_
    simp only [hm, ne_eq, not_true_eq_false, or_false]
    omega

/-! #### No format raises `NoCommand`, and each yields commands only (R81, R85) -/

/-- The answers of a format: `MessageError` or a command. -/
def FormatAnswer (d : Decoded) : Prop := d = .messageError ∨ ∃ i, d = .instr i ∧ i.isCommand = true

theorem formatAnswer_exactly (n : Nat) (body : List Byte) {i : Instr} (hi : i.isCommand = true) :
    FormatAnswer (exactly n body i) := by
  rcases exactly_cases n body i with ⟨-, hd⟩ | ⟨-, hd⟩
  · exact .inr ⟨i, hd, hi⟩
  · exact .inl hd

theorem formatAnswer_decodeACD (body : List Byte) : FormatAnswer (decodeACD body) := by
  rcases decodeACD_cases body with ⟨-, hd⟩ | ⟨-, hd⟩
  · exact .inl hd
  · exact .inr ⟨_, hd, rfl⟩

theorem formatAnswer_decodeWR (body : List Byte) : FormatAnswer (decodeWR body) := by
  rcases decodeWR_cases body with ⟨-, hd⟩ | ⟨-, -, hd⟩
  · exact .inl hd
  · exact .inr ⟨_, hd, rfl⟩

theorem FormatAnswer.ne_noCommand {d : Decoded} (h : FormatAnswer d) : d ≠ .noCommand := by
  rcases h with rfl | ⟨i, rfl, -⟩ <;> simp

/-- R81's decoder, seen as a whole: `NoCommand` for the other first bytes, else a format's answer. -/
theorem decodeCommand_answer (body : List Byte) :
    (FormatAnswer (decodeCommand body) ∧ ∀ op rest, body = op :: rest → op.toNat ∈ commandOpcodes) ∨
    (decodeCommand body = .noCommand ∧ ∃ op rest, body = op :: rest ∧ op.toNat ∉ commandOpcodes) := by
  have hd := dispatched_decodeCommand body
  generalize decodeCommand body = d at hd
  cases hd with
  | empty => exact .inl ⟨.inl rfl, by simp⟩
  | acd hop => exact .inl ⟨formatAnswer_decodeACD _, by simp [hop, commandOpcodes]⟩
  | wr hop => exact .inl ⟨formatAnswer_decodeWR _, by simp [hop, commandOpcodes]⟩
  | fixed hlen hi =>
    refine .inl ⟨formatAnswer_exactly _ _ hi, fun op rest h => ?_⟩
    cases h
    exact hlen.mem_commandOpcodes
  | other hop => exact .inr ⟨rfl, _, _, rfl, hop⟩

/-- Settles O28: a first byte outside `commandOpcodes` reaches the last arm of R81, and no format raises
`NoCommand`. -/
theorem noCommandExactlyForOtherFirstBytes : Obligations.NoCommandExactlyForOtherFirstBytes := by
  intro body
  rcases decodeCommand_answer body with ⟨hformat, hmem⟩ | ⟨hd, hother⟩
  · exact iff_of_false hformat.ne_noCommand fun ⟨op, rest, hbody, hop⟩ => hop (hmem op rest hbody)
  · exact iff_of_true hd hother

/-- R84's cases for a body that is not empty: `op` is the value of its first byte. -/
def Malformed (op : Nat) (body : List Byte) : Prop :=
  (op ∈ [104, 105, 110, 111] ∧ body.length ≠ 1) ∨
  (op ∈ [103, 112, 113, 114, 115, 116] ∧ body.length ≠ 2) ∨
  (op = 101 ∧ body.length ≠ 3) ∨
  (op = 100 ∧ (body.length < 3 ∨ body.length - 3 < (byteAt body 2).toNat)) ∨
  (op = 102 ∧ (body.length < 5 ∨ body.length < 5 + (byteAt body 2).toNat ∨
    (byteAt body (3 + (byteAt body 2).toNat)).toNat ≠ 101))

theorem malformed_iff_of_hasExactLength {op n : Nat} (h : HasExactLength op n) (body : List Byte) :
    Malformed op body ↔ body.length ≠ n := by
  simp only [HasExactLength, Malformed, List.mem_cons, List.not_mem_nil, or_false] at h ⊢
  omega

theorem malformed_acd_iff (body : List Byte) :
    Malformed 100 body ↔ decodeACD body = .messageError := by
  simp [Malformed, decodeACD_eq_messageError_iff]

theorem malformed_wr_iff (body : List Byte) :
    Malformed 102 body ↔ decodeWR body = .messageError := by
  simp [Malformed, decodeWR_eq_messageError_iff]

theorem Malformed.mem_commandOpcodes {op : Nat} {body : List Byte} (h : Malformed op body) :
    op ∈ commandOpcodes := by
  simp only [Malformed, commandOpcodes, List.mem_cons, List.not_mem_nil, or_false] at h ⊢
  omega

/-- Arm by arm of R81: a body is answered `MessageError` when its format's condition fails. -/
theorem Dispatched.messageError_iff_malformed {op : Byte} {rest : List Byte} {d : Decoded}
    (h : Dispatched (op :: rest) d) : d = .messageError ↔ Malformed op.toNat (op :: rest) := by
  cases h with
  | acd hop => rw [hop, malformed_acd_iff]
  | wr hop => rw [hop, malformed_wr_iff]
  | fixed hlen hi => rw [malformed_iff_of_hasExactLength hlen, exactly_eq_messageError_iff]
  | other hop => exact iff_of_false (by simp) fun hbad => hop hbad.mem_commandOpcodes

/-- Settles O29: the empty body is rejected, and every other one by the arm its first byte selects. -/
theorem messageErrorExactlyForMalformedBodies :
    Obligations.MessageErrorExactlyForMalformedBodies := by
  intro body
  have hd := dispatched_decodeCommand body
  cases body with
  | nil => exact iff_of_true rfl (.inl rfl)
  | cons op rest =>
    refine hd.messageError_iff_malformed.trans ⟨fun hbad => .inr ⟨op, rest, rfl, hbad⟩, ?_⟩
    rintro (hnil | ⟨op', rest', hcons, hbad⟩)
    · cases hnil
    · cases hcons
      exact hbad

end Sys2Proof
end

/-! ### The command loop, and every step, go on -/

section
namespace Sys2Proof.Machine

/-- A first byte of 106 to 109 is a row that is no command, for R81's decoder `NoCommand`; for every other
body the two decoders agree. -/
theorem decode_eq_decodeCommand_or_row (body : List Byte) :
    decode body = decodeCommand body ∨
    (decodeCommand body = .noCommand ∧ ∃ i, decode body = .instr i ∧ i.isCommand = false) := by
  by_cases hrow : (byteAt body 0).toNat ∈ [106, 107, 108, 109]
  · cases body with
    | nil => simp [byteAt] at hrow
    | cons op rest =>
      simp only [byteAt_zero, List.mem_cons, List.not_mem_nil, or_false] at hrow
      right
      rcases hrow with hop | hop | hop | hop <;>
        simp [decode, decodeCommand, hop, Instr.isCommand]
  · exact .inl (decode_eq_decodeCommand hrow)

theorem runCommand_of_decodeCommand_noCommand {body : List Byte} {s : State}
    (h : decodeCommand body = .noCommand) : runCommand body s = .next (transmit noCommandFrame s) := by
  rcases decode_eq_decodeCommand_or_row body with heq | ⟨-, i, hi, hrow⟩
  · exact runCommand_noCommand (heq.trans h)
  · exact (runCommand_instr hi).trans (exec_of_not_isCommand hrow s)

/-- A body that R81's decoder does not answer with `NoCommand` is decoded to the same over all rows. -/
theorem decode_of_decodeCommand {body : List Byte} {d : Decoded} (h : decodeCommand body = d)
    (hd : d ≠ .noCommand) : decode body = d := by
  rcases decode_eq_decodeCommand_or_row body with heq | ⟨hnone, -⟩
  · exact heq.trans h
  · exact absurd (h.symm.trans hnone) hd

theorem isCommand_of_decodeCommand {body : List Byte} {i : Instr} (h : decodeCommand body = .instr i) :
    i.isCommand = true := by
  rcases decodeCommand_answer body with ⟨hreject | ⟨j, hj, hcommand⟩, -⟩ | ⟨hnone, -⟩
  · cases h.symm.trans hreject
  · cases h.symm.trans hj
    exact hcommand
  · cases h.symm.trans hnone

/-- Settles O31: the loop follows the decoder over all rows, whose rows 106 to 109 do what `NoCommand`
does. -/
theorem commandLoopFollowsTheDecoder : Obligations.CommandLoopFollowsTheDecoder := by
  refine fun body s => ⟨fun h => ?_, fun h => ?_, fun i h => ⟨isCommand_of_decodeCommand h, ?_⟩⟩
  · exact runCommand_messageError (decode_of_decodeCommand h (by simp))
  · exact runCommand_of_decodeCommand_noCommand h
  · exact runCommand_instr (decode_of_decodeCommand h (by simp))

/-- Each arm of the reader answers a next state (R65 to R69, R86). -/
theorem feed_goes_on (b : Byte) (s : State) : ∃ t, feed b s = .next t := by
  rcases readerArm_cases b s with ⟨ha, -⟩ | ⟨ha, -⟩ | ⟨ha, -⟩ | ⟨ha, -⟩
  · obtain ⟨t, es, fr, ht, -⟩ := runCommand_answers (frameBody s) (emptied s)
    exact ⟨t, (feed_complete ha).trans ht⟩
  · exact ⟨_, feed_overflow ha⟩
  · exact ⟨_, feed_append ha⟩
  · exact ⟨_, feed_discard ha⟩

theorem safeStep (s : State) : SafeStep s := by
  cases hin : s.inputs with
  | nil => exact ⟨s, step_of_no_input hin⟩
  | cons input rest =>
    cases input with
    | rx b =>
      obtain ⟨t, ht⟩ := feed_goes_on b (withInputs rest s)
      exact ⟨t, (step_rx hin).trans ht⟩
    | reset => exact ⟨_, step_reset hin⟩
    | rxThenReset b k =>
      obtain ⟨t, ht⟩ := feed_goes_on b (withInputs rest s)
      exact ⟨_, (step_rxThenReset hin).trans (congrArg (abandonOutcome k (withInputs rest s)) ht)⟩

/-- Settles O6: no arm of the reader and no instruction stops. -/
theorem everyStepAndEveryInstructionGoesOn : Obligations.EveryStepAndEveryInstructionGoesOn := by
  refine ⟨safeStep, fun i s => ?_⟩
  obtain ⟨t, es, fr, ht, -⟩ := exec_shape i s
  exact ⟨t, ht⟩

/-! #### The response is the last event of a completed frame -/

theorem newEvents_of_trace {s t : State} {es : List Event} (h : t.trace = s.trace ++ es) :
    newEvents s t = es := by rw [newEvents, h, List.drop_left]

/-- The three arms that complete no frame record nothing, or the `Overflow` (R67 to R69). -/
theorem newEvents_of_not_complete {b : Byte} {s t : State} (h : feed b s = .next t)
    (hn : readerArm b s ≠ .complete) : newEvents s t = [] ∨ newEvents s t = [.overflow] := by
  rcases readerArm_cases b s with ⟨ha, -⟩ | ⟨ha, -⟩ | ⟨ha, -⟩ | ⟨ha, -⟩
  · exact absurd ha hn
  · cases (feed_overflow ha).symm.trans h
    exact .inr (newEvents_of_trace (takeOverflow_trace b s))
  · cases (feed_append ha).symm.trans h
    exact .inl (newEvents_of_trace (by simp))
  · cases (feed_discard ha).symm.trans h
    exact .inl (newEvents_of_trace (by simp))

/-- Settles O23: the completed frame runs the command loop, which answers every body once and last. -/
theorem oneResponsePerCompletedFrame : Obligations.OneResponsePerCompletedFrame := by
  refine fun s t b h => ⟨fun ha => ?_, fun hn e he => ?_⟩
  · obtain ⟨t', es, fr, ht, htrace, hes, -⟩ := runCommand_answers (frameBody s) (emptied s)
    cases h.symm.trans ((feed_complete ha).trans ht)
    exact ⟨es, fr, newEvents_of_trace htrace, hes⟩
  · rcases newEvents_of_not_complete h hn with hnil | hoverflow
    · rw [hnil] at he
      cases he
    · rw [hoverflow, List.mem_singleton] at he
      rw [he]
      rfl

end Sys2Proof.Machine
end

/-! ### The bus transfer commands -/

section
namespace Sys2Proof.Machine

/-- What a command that reports the answer of a bus write makes of it (R90). -/
def statusResult (addr : Byte) : WriteAnswer → Result
  | .ok st => .statusCode addr st
  | .fault st => .busFault st

/-- What a command that reports the answer of a bus read makes of it (R91, R92). -/
def payloadResult (addr : Byte) : ReadAnswer → Result
  | .ok d => .readPayload addr d
  | .fault st => .busFault st

theorem executeWrite_eq (addr : Byte) (data : List Byte) (s : State) :
    executeWrite addr data s = (statusResult addr (nextWriteAnswer s), (busWrite addr data s).2) := by
  unfold executeWrite busWrite
  cases nextWriteAnswer s <;> rfl

theorem executeRead_eq (addr count : Byte) (s : State) :
    executeRead addr count s =
      (payloadResult addr (nextReadAnswer count s), (busRead addr count s).2) := by
  unfold executeRead busRead
  cases nextReadAnswer count s <;> rfl

/-- A fault of the write step ends WRITEREAD. -/
theorem executeWriteRead_of_fault {s : State} {st : Option Byte} (h : nextWriteAnswer s = .fault st)
    (addr : Byte) (wdata : List Byte) (rcount : Byte) :
    executeWriteRead addr wdata rcount s = (.busFault st, (busWrite addr wdata s).2) := by
  simp only [executeWriteRead, busWrite, h]

/-- After a status, whatever it is, WRITEREAD waits and goes on as READ does. -/
theorem executeWriteRead_of_ok {s : State} {st : BusStatus} (h : nextWriteAnswer s = .ok st)
    (addr : Byte) (wdata : List Byte) (rcount : Byte) :
    executeWriteRead addr wdata rcount s =
      executeRead addr rcount (delay s.cfg.wrDelay (busWrite addr wdata s).2) := by
  simp only [executeWriteRead, executeRead, busWrite, h, record_cfg, popWriteAnswer_cfg]

/-- The response closes the events of the command (R86). -/
theorem Grown.respond {s t : State} {es : List Event} (h : Grown s t es) (op : Byte) (r : Result) :
    Grown s (respond op (r, t)) (es ++ [.tx (encodeResponse op r)]) := by
  rw [respond_eq]
  exact h.trans (grown_transmit _ _)

theorem grown_write (addr : Byte) (data : List Byte) (s : State) :
    Grown s (respond 100#8 (executeWrite addr data s))
      [.busWrite s.cfg.freq addr data (nextWriteAnswer s),
       .tx (encodeResponse 100#8 (statusResult addr (nextWriteAnswer s)))] := by
  rw [executeWrite_eq]
  exact (grown_busWrite addr data s).respond 100#8 _

/-- The receive step with its response, for READ and for WRITEREAD, which differ in the opcode. -/
theorem grown_read (op addr count : Byte) (s : State) :
    Grown s (respond op (executeRead addr count s))
      [.busRead s.cfg.freq addr count (nextReadAnswer count s),
       .tx (encodeResponse op (payloadResult addr (nextReadAnswer count s)))] := by
  rw [executeRead_eq]
  exact (grown_busRead addr count s).respond op _

theorem grown_writeRead_of_fault {s : State} {st : Option Byte} (h : nextWriteAnswer s = .fault st)
    (addr : Byte) (wdata : List Byte) (rcount : Byte) :
    Grown s (respond 102#8 (executeWriteRead addr wdata rcount s))
      [.busWrite s.cfg.freq addr wdata (.fault st), .tx (encodeResponse 102#8 (.busFault st))] := by
  rw [executeWriteRead_of_fault h, ← h]
  exact (grown_busWrite addr wdata s).respond 102#8 _

theorem grown_writeRead_of_ok {s : State} {st : BusStatus} (h : nextWriteAnswer s = .ok st)
    (addr : Byte) (wdata : List Byte) (rcount : Byte) :
    Grown s (respond 102#8 (executeWriteRead addr wdata rcount s))
      [.busWrite s.cfg.freq addr wdata (.ok st), .delay s.cfg.wrDelay,
       .busRead s.cfg.freq addr rcount (nextReadAnswer rcount (popWriteAnswer s)),
       .tx (encodeResponse 102#8
        (payloadResult addr (nextReadAnswer rcount (popWriteAnswer s))))] := by
  rw [executeWriteRead_of_ok h, ← h]
  have hwrite := grown_busWrite addr wdata s
  have hread := grown_read 102#8 addr rcount (delay s.cfg.wrDelay (busWrite addr wdata s).2)
  rw [delay_cfg, hwrite.cfg] at hread
  exact hwrite.cons ((grown_delay s.cfg.wrDelay _).cons hread)

/-- Settles O37: the answer decides between the status and the two ERROR frames. -/
theorem writeSendsOnceAndReportsTheStatus : Obligations.WriteSendsOnceAndReportsTheStatus := by
  intro addr data s
  have hg := grown_write addr data s
  refine ⟨_, rfl, hg.sameBlock, hg.writeAnswers, hg.readAnswers, hg.trace.trans ?_⟩
  rcases nextWriteAnswer s with st | _ | b <;> rfl

/-- Settles O38: the answer decides between the bytes received and the two ERROR frames. -/
theorem readReportsTheBytesReceived : Obligations.ReadReportsTheBytesReceived := by
  intro addr count s
  have hg := grown_read 101#8 addr count s
  refine ⟨_, _, rfl, hg.sameBlock, hg.writeAnswers, hg.readAnswers, rfl,
    fun d hd => nextReadAnswer_length hd, hg.trace.trans ?_⟩
  rcases nextReadAnswer count s with d | _ | b <;> rfl

/-- Settles O39: by the answer to the write step; after a status the receive step is READ's. -/
theorem writeReadWritesThenWaitsThenReads : Obligations.WriteReadWritesThenWaitsThenReads := by
  intro addr rcount wdata s
  cases h : nextWriteAnswer s with
  | fault st =>
    have hg := grown_writeRead_of_fault h addr wdata rcount
    refine ⟨_, rfl, hg.sameBlock, hg.writeAnswers, ?_, fun st' hst => nomatch hst⟩
    rintro _ ⟨⟩
    exact ⟨hg.readAnswers, hg.trace⟩
  | ok st =>
    have hg := grown_writeRead_of_ok h addr wdata rcount
    refine ⟨_, rfl, hg.sameBlock, hg.writeAnswers, fun st' hst => (nomatch hst), ?_⟩
    rintro _ ⟨⟩
    refine ⟨hg.readAnswers, _, rfl, fun d hd => nextReadAnswer_length hd, hg.trace.trans ?_⟩
    rcases nextReadAnswer rcount (popWriteAnswer s) with d | _ | b <;> rfl

end Sys2Proof.Machine
end

/-! ### The bus management commands -/

section
namespace Sys2Proof.Machine

/-! #### CHECKDEVICE -/

/-- A probe is a write without data, and its status is reported as a WRITE's is (R42, R100). -/
theorem executeCheckDevice_eq_executeWrite (addr : Byte) (s : State) :
    executeCheckDevice addr s = executeWrite addr [] s := by
  unfold executeCheckDevice executeWrite probe busWrite
  cases nextWriteAnswer s <;> rfl

theorem grown_checkDevice (addr : Byte) (s : State) :
    Grown s (respond 103#8 (executeCheckDevice addr s))
      [.busWrite s.cfg.freq addr [] (nextWriteAnswer s),
       .tx (encodeResponse 103#8 (statusResult addr (nextWriteAnswer s)))] := by
  rw [executeCheckDevice_eq_executeWrite, executeWrite_eq]
  exact (grown_busWrite addr [] s).respond 103#8 _

/-- Settles O40: the answer decides between the status and the two ERROR frames. -/
theorem checkDeviceProbesOnceAndReportsTheStatus :
    Obligations.CheckDeviceProbesOnceAndReportsTheStatus := by
  intro addr s
  have hg := grown_checkDevice addr s
  refine ⟨_, rfl, hg.sameBlock, hg.writeAnswers, hg.readAnswers, hg.trace.trans ?_⟩
  rcases nextWriteAnswer s with st | _ | b <;> rfl

/-! #### The probes of DEVICELIST -/

/-- The address of probe `k`, counted from 0 (R43). -/
def scanAddress (k : Nat) : Byte := BitVec.ofNat 8 (k + 1)

/-- The state after the first `n` probes. -/
def probed (s : State) : Nat → State
  | 0 => s
  | n + 1 => (busWrite (scanAddress n) [] (probed s n)).2

/-- The event of probe `k` in a scan that starts in `s`. -/
def probeEvent (s : State) (k : Nat) : Event :=
  .busWrite s.cfg.freq (scanAddress k) [] (writeAnswerAfter k s)

/-- Those of the first `n` addresses that answer 0 in a scan that starts in `s`. -/
def foundBelow (s : State) (n : Nat) : List Byte :=
  ((List.range n).filter fun k => decide (writeAnswerAfter k s = .ok .success)).map scanAddress

theorem scanAddress_toNat {k : Nat} (h : k < 126) : (scanAddress k).toNat = k + 1 := by
  simp only [scanAddress, BitVec.toNat_ofNat]
  omega

theorem scanAddresses_eq : scanAddresses = (List.range 126).map scanAddress :=
  List.map_congr_left fun k _ => congrArg (BitVec.ofNat 8) (Nat.add_comm 1 k)

/-- The scan range, cut at probe `n`. -/
theorem scanAddresses_split {n : Nat} (h : n < 126) :
    ∃ rest, scanAddresses = (List.range n).map scanAddress ++ scanAddress n :: rest := by
  obtain ⟨m, hm⟩ := Nat.exists_eq_add_of_lt h
  rw [scanAddresses_eq, hm, Nat.add_right_comm, List.range_add, List.range_succ]
  exact ⟨((List.range m).map (n + 1 + ·)).map scanAddress, by simp⟩

theorem writeAnswerAfter_probed (s : State) (n k : Nat) :
    writeAnswerAfter k (probed s n) = writeAnswerAfter (k + n) s := by
  induction n generalizing k with
  | zero => rfl
  | succ n ih => rw [probed, writeAnswerAfter_busWrite, ih, Nat.add_right_comm, Nat.add_assoc]

theorem nextWriteAnswer_probed (s : State) (n : Nat) :
    nextWriteAnswer (probed s n) = writeAnswerAfter n s :=
  (writeAnswerAfter_probed s n 0).trans (congrArg (writeAnswerAfter · s) (Nat.zero_add n))

theorem grown_probed (s : State) (n : Nat) :
    Grown s (probed s n) ((List.range n).map (probeEvent s)) := by
  induction n with
  | zero => exact Grown.refl s
  | succ n ih =>
    have hprobe := grown_busWrite (scanAddress n) [] (probed s n)
    rw [ih.cfg, nextWriteAnswer_probed] at hprobe
    rw [List.range_succ, List.map_append]
    exact ih.trans hprobe

theorem foundBelow_succ (s : State) (n : Nat) {st : BusStatus} (h : writeAnswerAfter n s = .ok st) :
    foundBelow s (n + 1) =
      if st = .success then foundBelow s n ++ [scanAddress n] else foundBelow s n := by
  rw [foundBelow, List.range_succ, List.filter_append, List.map_append]
  cases st <;> simp [h, foundBelow]

/-- As long as no probe faults, the scan goes on with what it has found so far (R101). -/
theorem scan_range {s : State} {n : Nat} (h : ∀ k, k < n → ∃ st, writeAnswerAfter k s = .ok st)
    (rest : List Byte) :
    scan ((List.range n).map scanAddress ++ rest) [] s = scan rest (foundBelow s n) (probed s n) := by
  induction n generalizing rest with
  | zero => rfl
  | succ n ih =>
    obtain ⟨st, hst⟩ := h n (Nat.lt_succ_self n)
    have hturn := scan_ok (a := scanAddress n) (as := rest) (found := foundBelow s n)
      ((nextWriteAnswer_probed s n).trans hst)
    rw [List.range_succ, List.map_append, List.append_assoc,
      ih (fun k hk => h k (Nat.lt_succ_of_lt hk)), foundBelow_succ s n hst]
    exact hturn

theorem executeDeviceList_of_ok {s : State} (h : ∀ k, k < 126 → ∃ st, writeAnswerAfter k s = .ok st) :
    executeDeviceList s = (.deviceList (foundBelow s 126), probed s 126) := by
  have hscan := scan_range h []
  rwa [List.append_nil, ← scanAddresses_eq] at hscan

theorem executeDeviceList_of_fault {s : State} {n : Nat} {st : Option Byte} (hn : n < 126)
    (hok : ∀ k, k < n → ∃ ok, writeAnswerAfter k s = .ok ok) (hst : writeAnswerAfter n s = .fault st) :
    executeDeviceList s = (.busFault st, probed s (n + 1)) := by
  obtain ⟨rest, hrest⟩ := scanAddresses_split hn
  rw [executeDeviceList, hrest, scan_range hok, scan_fault ((nextWriteAnswer_probed s n).trans hst)]
  rfl

theorem countP_isBusWrite_probes (s : State) (n : Nat) :
    ((List.range n).map (probeEvent s)).countP Event.isBusWrite = n := by
  have hall : ∀ k ∈ List.range n, (Event.isBusWrite ∘ probeEvent s) k = true := fun _ _ => rfl
  rw [List.countP_map, List.countP_eq_length.mpr hall, List.length_range]

theorem countP_isBusRead_probes (s : State) (n : Nat) :
    ((List.range n).map (probeEvent s)).countP Event.isBusRead = 0 := by
  have hnone : ∀ k ∈ List.range n, ¬ (Event.isBusRead ∘ probeEvent s) k = true :=
    fun _ _ => Bool.false_ne_true
  rw [List.countP_map, List.countP_eq_zero.mpr hnone]

/-- What DEVICELIST leaves when it ends after `n` probes with result `r`. -/
theorem deviceList_ends {s : State} {n : Nat} {r : Result}
    (h : executeDeviceList s = (r, probed s n)) :
    ∃ t, exec .deviceList s = .next t ∧ SameBlock s t ∧
      t.writeAnswers = s.writeAnswers.drop n ∧ t.readAnswers = s.readAnswers ∧
      t.trace = s.trace ++ (List.range n).map (probeEvent s) ++ [.tx (encodeResponse 104#8 r)] := by
  have hexec : exec .deviceList s = .next (respond 104#8 (executeDeviceList s)) := rfl
  rw [h] at hexec
  have hg := grown_probed s n
  have hw := hg.writeAnswers
  have hr := hg.readAnswers
  rw [countP_isBusWrite_probes] at hw
  rw [countP_isBusRead_probes] at hr
  have hgr := hg.respond 104#8 r
  refine ⟨_, hexec, hgr.sameBlock, ?_, ?_, by rw [hgr.trace, List.append_assoc]⟩
  · rw [respond_eq, transmit_writeAnswers, hw]
  · rw [respond_eq, transmit_readAnswers, hr, List.drop_zero]

/-- Settles O41: the scan reaches the end of the range. -/
theorem deviceListProbesEveryAddressAndListsTheFound :
    Obligations.DeviceListProbesEveryAddressAndListsTheFound := by
  intro s hok
  obtain ⟨t, hexec, hblock, hw, hr, htrace⟩ := deviceList_ends (executeDeviceList_of_ok hok)
  exact ⟨t, foundBelow s 126, hexec, hblock, hw, hr, rfl, htrace⟩

/-- Settles O42: the scan goes on up to the first fault, which abandons it. -/
theorem deviceListStopsAtTheFirstFault : Obligations.DeviceListStopsAtTheFirstFault :=
  fun _ _ _ hn hok hst => deviceList_ends (executeDeviceList_of_fault hn hok hst)

/-! #### The list of DEVICELIST -/

/-- The answers to the first `m` probes: all are statuses, or there is a first fault among them. -/
theorem answers_ok_or_first_fault (s : State) (m : Nat) :
    (∀ k, k < m → ∃ st, writeAnswerAfter k s = .ok st) ∨
    ∃ n st, n < m ∧ (∀ k, k < n → ∃ ok, writeAnswerAfter k s = .ok ok) ∧
      writeAnswerAfter n s = .fault st := by
  induction m with
  | zero => exact .inl fun k hk => absurd hk (Nat.not_lt_zero k)
  | succ m ih =>
    rcases ih with hok | ⟨n, st, hn, hfault⟩
    · cases hm : writeAnswerAfter m s with
      | fault st => exact .inr ⟨m, st, Nat.lt_succ_self m, hok, hm⟩
      | ok st =>
        refine .inl fun k hk => ?_
        rcases Nat.lt_succ_iff_lt_or_eq.mp hk with hlt | rfl
        · exact hok k hlt
        · exact ⟨st, hm⟩
    · exact .inr ⟨n, st, Nat.lt_succ_of_lt hn, hfault⟩

theorem foundBelow_ascending (s : State) {n : Nat} (hn : n ≤ 126) :
    ((foundBelow s n).map BitVec.toNat).Pairwise (· < ·) := by
  rw [foundBelow, List.map_map, List.pairwise_map]
  refine (List.pairwise_lt_range.filter _).imp_of_mem fun {j k} hj hk hlt => ?_
  have hj' : j < n := List.mem_range.mp (List.mem_of_mem_filter hj)
  have hk' : k < n := List.mem_range.mp (List.mem_of_mem_filter hk)
  rw [Function.comp_apply, Function.comp_apply, scanAddress_toNat (by omega), scanAddress_toNat (by omega)]
  omega

theorem foundBelow_length_le (s : State) (n : Nat) : (foundBelow s n).length ≤ n := by
  rw [foundBelow, List.length_map]
  exact (List.length_filter_le _ _).trans List.length_range.le

theorem mem_foundBelow {s : State} {n : Nat} {a : Byte} :
    a ∈ foundBelow s n ↔ ∃ k, k < n ∧ writeAnswerAfter k s = .ok .success ∧ scanAddress k = a := by
  simp [foundBelow, and_assoc]

/-- A frame that has the form of a list frame carries its list and the count of it. -/
theorem encodeResponse_deviceList_inj {k : Byte} {found found' : List Byte}
    (h : encodeResponse 104#8 (.deviceList found') = [104#8, k] ++ found ++ [13#8, 10#8]) :
    k = BitVec.ofNat 8 found'.length ∧ found = found' := by
  simp only [encodeResponse, countByte, List.cons_append, List.nil_append,
    List.cons.injEq, true_and] at h
  obtain ⟨hcount, hlist⟩ := h
  exact ⟨hcount.symm, (List.append_cancel_right hlist).symm⟩

/-- The ERROR frame is no list frame: its opcode is another. -/
theorem encodeResponse_busFault_ne_list (op : Byte) (st : Option Byte) (rest : List Byte) :
    encodeResponse op (.busFault st) ≠ 104#8 :: rest := by
  cases st <;> simp [encodeResponse, errorFrame, opERROR]

/-- Settles O43: only a scan without a fault sends a list, and then it is that of O41. -/
theorem deviceListIsStrictlyAscending : Obligations.DeviceListIsStrictlyAscending := by
  intro s t k found hexec hlast
  rcases answers_ok_or_first_fault s 126 with hok | ⟨n, st, hn, hok, hst⟩
  · obtain ⟨t', hexec', -, -, -, htrace⟩ := deviceList_ends (executeDeviceList_of_ok hok)
    cases hexec.symm.trans hexec'
    rw [htrace, List.getLast?_concat, Option.some_inj, Event.tx.injEq] at hlast
    obtain ⟨rfl, rfl⟩ := encodeResponse_deviceList_inj hlast
    refine ⟨?_, foundBelow_ascending s le_rfl, fun a ha => ?_⟩
    · exact count_toNat ((foundBelow_length_le s 126).trans (by decide))
    · obtain ⟨j, hj, hsuccess, rfl⟩ := mem_foundBelow.mp ha
      rw [scanAddress_toNat hj]
      refine ⟨by omega, by omega, ?_⟩
      rw [newEvents_of_trace (htrace.trans (List.append_assoc ..)), ← hsuccess]
      exact List.mem_append_left _ (List.mem_map_of_mem (List.mem_range.mpr hj))
  · obtain ⟨t', hexec', -, -, -, htrace⟩ :=
      deviceList_ends (executeDeviceList_of_fault hn hok hst)
    cases hexec.symm.trans hexec'
    rw [htrace, List.getLast?_concat, Option.some_inj, Event.tx.injEq] at hlast
    exact absurd hlast (encodeResponse_busFault_ne_list _ _ _)

/-! #### RESETDEVICES -/

/-- The level of a pin after further events: theirs, or else the one from before (R25). -/
theorem pinLevel_append (p : Byte) (es fs : List Event) :
    pinLevel p (es ++ fs) = (pinLevel p fs).orElse fun _ => pinLevel p es := by
  induction es with
  | nil => simp [pinLevel]
  | cons e es ih =>
    cases e with
    | pinWrite q v => cases h : pinLevel p fs <;> simp [pinLevel, ih, h]
    | _ => exact ih

/-- The events of RESETDEVICES under the configuration `c` (R102). -/
def resetEvents (c : Cfg) : List Event :=
  [.pinWrite c.resetPin .low, .delay c.resetPulse, .pinWrite c.resetPin .high, .delay c.resetSettle,
   .tx [105#8, 13#8, 10#8]]

theorem exec_resetDevices (s : State) :
    exec .resetDevices s = .next { s with trace := s.trace ++ resetEvents s.cfg } := by
  have htrace : (((s.trace ++ [.pinWrite s.cfg.resetPin .low]) ++ [.delay s.cfg.resetPulse]) ++
      [.pinWrite s.cfg.resetPin .high]) ++ [.delay s.cfg.resetSettle] ++ [.tx [105#8, 13#8, 10#8]] =
      s.trace ++ resetEvents s.cfg := by simp [resetEvents]
  rw [← htrace]
  rfl

theorem pinLevel_resetEvents (p : Byte) (c : Cfg) :
    pinLevel p (resetEvents c) = if c.resetPin = p then some .high else none := by
  by_cases h : c.resetPin = p <;> simp [resetEvents, pinLevel, h]

theorem decode_resetDevices_body (bs : List Byte) :
    decode (105#8 :: bs) = exactly 1 (105#8 :: bs) .resetDevices := by
  simp [decode, decodeCommand]

/-- Settles O44: the five events drive the configured pin low and then high, and no other pin; the format
is exact. -/
theorem resetDevicesPulsesThePinLow : Obligations.ResetDevicesPulsesThePinLow := by
  refine ⟨fun s => ⟨_, exec_resetDevices s, rfl, ?_, fun p hp => ?_⟩, rfl, fun body hhead hlen => ?_⟩
  · rw [pinLevel_append, pinLevel_resetEvents, if_pos rfl]
    rfl
  · rw [pinLevel_append, pinLevel_resetEvents, if_neg hp.symm]
    rfl
  · obtain ⟨bs, rfl⟩ := List.head?_eq_some_iff.mp hhead
    rw [decode_resetDevices_body, exactly_of_length_ne hlen]

end Sys2Proof.Machine
end

/-! ### The configuration commands -/

section
namespace Sys2Proof.Machine

/-- The seven commands of 44_configuration.md, each of which writes one setting (R110). -/
def isConfiguration : Instr → Bool
  | .resetI2CFreq => true
  | .set400kHz => true
  | .setWriteReadDelay _ => true
  | .setResetPin _ => true
  | .setResetTime _ => true
  | .setResetSettleTime _ => true
  | .setInputBufferSize _ => true
  | _ => false

/-- The rule of the configuration commands: the setting is written, and the Ack is the one event. -/
theorem exec_of_isConfiguration {i : Instr} (hi : isConfiguration i = true) (s : State) :
    exec i s = .next { written i s with trace := s.trace ++ [.tx [i.opcode, 13#8, 10#8]] } := by
  cases i with
  | resetI2CFreq => rfl
  | set400kHz => rfl
  | setWriteReadDelay p => rfl
  | setResetPin p => rfl
  | setResetTime p => rfl
  | setResetSettleTime p => rfl
  | setInputBufferSize p => rfl
  | _ => cases hi

/-- A body of another length than its exact format has is rejected (R82, R84). -/
theorem decode_of_length_ne {op : Byte} {n : Nat} {body : List Byte} (hexact : HasExactLength op.toNat n)
    (hhead : body.head? = some op) (hlen : body.length ≠ n) : decode body = .messageError := by
  obtain ⟨rest, rfl⟩ := List.head?_eq_some_iff.mp hhead
  have hbad : Malformed op.toNat (op :: rest) := (malformed_iff_of_hasExactLength hexact _).mpr hlen
  have hcommand : decodeCommand (op :: rest) = .messageError :=
    (dispatched_decodeCommand _).messageError_iff_malformed.mpr hbad
  exact decode_of_decodeCommand hcommand (by simp)

theorem noTerminatorPair_pair {a : Byte} (ha : a ≠ CR) (b : Byte) : noTerminatorPair [a, b] = true := by
  simp [noTerminatorPair, ha]

/-- Between frames the reader has nothing to reset (R73). -/
theorem readerReset_eq_self {s : State} (hp : s.phase = .recv) (hl : s.len = 0#8) (hd : s.dcr = false) :
    readerReset s = s := by
  rw [readerReset, ← hp, ← hl, ← hd]

/-- Settles O45: two configuration commands, with the exact format N. -/
theorem frequencyCommandsSetTheMode : Obligations.FrequencyCommandsSetTheMode := by
  refine ⟨exec_of_isConfiguration (i := .resetI2CFreq) rfl, exec_of_isConfiguration (i := .set400kHz) rfl,
    decode_encode (i := .resetI2CFreq) rfl, decode_encode (i := .set400kHz) rfl, fun body hhead hlen => ?_⟩
  rcases hhead with hhead | hhead
  · exact decode_of_length_ne (.inl ⟨by decide, rfl⟩) hhead hlen
  · exact decode_of_length_ne (.inl ⟨by decide, rfl⟩) hhead hlen

/-- Settles O46: three configuration commands, with the exact format P; no opcode is a CR, so no parameter
makes a terminator. -/
theorem parameterCommandsStoreTheirByte : Obligations.ParameterCommandsStoreTheirByte := by
  refine ⟨fun p => exec_of_isConfiguration (i := .setWriteReadDelay p) rfl,
    fun p => exec_of_isConfiguration (i := .setResetPin p) rfl,
    fun p => exec_of_isConfiguration (i := .setResetSettleTime p) rfl,
    fun p => ⟨decode_encode (i := .setWriteReadDelay p) rfl, decode_encode (i := .setResetPin p) rfl,
      decode_encode (i := .setResetSettleTime p) rfl, noTerminatorPair_pair (by decide) p,
      noTerminatorPair_pair (by decide) p, noTerminatorPair_pair (by decide) p⟩,
    fun body hhead hlen => ?_⟩
  rcases hhead with hhead | hhead | hhead
  · exact decode_of_length_ne (.inr (.inl ⟨by decide, rfl⟩)) hhead hlen
  · exact decode_of_length_ne (.inr (.inl ⟨by decide, rfl⟩)) hhead hlen
  · exact decode_of_length_ne (.inr (.inl ⟨by decide, rfl⟩)) hhead hlen

/-- Settles O47: an instance of the rule of the configuration commands. -/
theorem setResetTimeStoresThePulseLength : Obligations.SetResetTimeStoresThePulseLength :=
  fun p => exec_of_isConfiguration (i := .setResetTime p) rfl

/-- Settles O48: of the configuration commands it alone resets the reader too, and between frames that
leaves the state as the new capacity makes it. -/
theorem setInputBufferSizeStoresCapacityAndResetsReader :
    Obligations.SetInputBufferSizeStoresCapacityAndResetsReader := by
  intro p s
  have hexec := exec_of_isConfiguration (i := .setInputBufferSize p) rfl s
  refine ⟨hexec, fun hp hl hd => ?_⟩
  have hidle : readerReset (setCfg { s.cfg with cap := p } s) = setCfg { s.cfg with cap := p } s :=
    readerReset_eq_self hp hl hd
  rw [written, hidle] at hexec
  exact hexec

end Sys2Proof.Machine
end

/-! ### The Response Encoder -/

section
namespace Sys2Proof.Machine

/-! #### The normal encodings (R121 to R124) -/

theorem length_encodeResponse_readPayload (op addr : Byte) (d : List Byte) :
    (encodeResponse op (.readPayload addr d)).length = 5 + d.length := by
  simp only [encodeResponse, List.length_append, List.length_cons, List.length_nil]
  omega

theorem length_encodeResponse_deviceList (op : Byte) (found : List Byte) :
    (encodeResponse op (.deviceList found)).length = 4 + found.length := by
  simp only [encodeResponse, List.length_append, List.length_cons, List.length_nil]
  omega

/-- Format N, the opcode alone: the Ack repeats the request frame (R124). -/
theorem encodeResponse_ack_of_opcode_only {i : Instr} (h : encode i = [i.opcode]) :
    encodeResponse i.opcode .ack = encodeFrame i := by
  rw [encodeFrame, h]
  rfl

/-- Format P, the opcode and a parameter: the Ack is the request frame without the parameter (R124). -/
theorem encodeResponse_ack_of_parameter {i : Instr} {p : Byte} (h : encode i = [i.opcode, p]) :
    encodeResponse i.opcode .ack = (encodeFrame i).eraseIdx 1 := by
  rw [encodeFrame, h]
  rfl

/-- Settles O34: the encodings are the encoder's equations, their count byte does not wrap, and an Ack
follows the format of the request. -/
theorem normalResponseEncodings : Obligations.NormalResponseEncodings := by
  refine ⟨fun op addr st _ => ⟨rfl, by cases st <;> rfl⟩, fun op addr d _ hd => ?_,
    fun found hfound => ?_, fun op => rfl, fun i hi => ?_, fun p i hi => ?_⟩
  · exact ⟨countByte d, count_toNat hd, rfl, length_encodeResponse_readPayload op addr d⟩
  · exact ⟨countByte found, count_toNat (hfound.trans (by decide)), rfl,
      length_encodeResponse_deviceList 104#8 found⟩
  · apply encodeResponse_ack_of_opcode_only
    rcases hi with rfl | rfl | rfl <;> rfl
  · apply encodeResponse_ack_of_parameter (p := p)
    rcases hi with rfl | rfl | rfl | rfl | rfl <;> rfl

/-! #### Every response is closed (R125) -/

/-- `fr` begins with `op`, ends with the terminator, and is at most 260 bytes long. -/
def ClosedFrame (op : Byte) (fr : List Byte) : Prop :=
  ∃ payload, fr = payload ++ terminator ∧ payload.length ≤ 258 ∧ payload.head? = some op

theorem closedFrame_cons (op : Byte) {fields : List Byte} (h : fields.length ≤ 257) :
    ClosedFrame op (op :: fields ++ terminator) := ⟨op :: fields, rfl, Nat.succ_le_succ h, rfl⟩

theorem closedFrame_messageErrorFrame : ClosedFrame opMESSAGEERROR messageErrorFrame :=
  closedFrame_cons _ (fields := []) (by simp)

theorem closedFrame_noCommandFrame : ClosedFrame opNOCOMMAND noCommandFrame :=
  closedFrame_cons _ (fields := []) (by simp)

theorem closedFrame_errorFrame (st : Option Byte) : ClosedFrame opERROR (errorFrame st) := by
  cases st with
  | none => exact closedFrame_cons _ (fields := []) (by simp)
  | some b => exact closedFrame_cons _ (fields := [b]) (by simp)

theorem closedFrame_statusCode (op addr : Byte) (st : BusStatus) :
    ClosedFrame op (encodeResponse op (.statusCode addr st)) :=
  closedFrame_cons op (fields := [addr, statusByte st]) (by simp)

/-- The longest response: 255 data bytes make 260 bytes. -/
theorem closedFrame_readPayload (op addr : Byte) {d : List Byte} (h : d.length ≤ 255) :
    ClosedFrame op (encodeResponse op (.readPayload addr d)) :=
  closedFrame_cons op (fields := addr :: countByte d :: d) (by simp only [List.length_cons]; omega)

theorem closedFrame_deviceList (op : Byte) {found : List Byte} (h : found.length ≤ 255) :
    ClosedFrame op (encodeResponse op (.deviceList found)) :=
  closedFrame_cons op (fields := countByte found :: found) (by simp only [List.length_cons]; omega)

theorem closedFrame_ack (op : Byte) : ClosedFrame op (encodeResponse op .ack) :=
  closedFrame_cons op (fields := []) (by simp)

/-- The normal response of every command. -/
theorem closedFrame_of_answers {i : Instr} {r : Result} (h : Answers i r) :
    ClosedFrame i.opcode (encodeResponse i.opcode r) := by
  cases i with
  | write addr data => obtain ⟨st, rfl⟩ := h; exact closedFrame_statusCode _ addr st
  | checkDevice addr => obtain ⟨st, rfl⟩ := h; exact closedFrame_statusCode _ addr st
  | read addr count =>
    obtain ⟨d, rfl, hd⟩ := h
    exact closedFrame_readPayload _ addr (hd.trans (Nat.le_of_lt_succ count.isLt))
  | writeRead addr wdata rcount =>
    obtain ⟨d, rfl, hd⟩ := h
    exact closedFrame_readPayload _ addr (hd.trans (Nat.le_of_lt_succ rcount.isLt))
  | deviceList =>
    obtain ⟨found, rfl, hsub⟩ := h
    have hlen := scanAddresses_length ▸ hsub.length_le
    exact closedFrame_deviceList _ (hlen.trans (by decide))
  | error | messageError | noCommand | info => exact h.elim
  | _ => cases h; exact closedFrame_ack _

/-- The first byte of a response to `i`: the opcode echo or ERROR for a command, else NOCOMMAND (R125). -/
def FirstByte (i : Instr) (head : Option Byte) : Prop :=
  (i.isCommand = true → head = some i.opcode ∨ head = some opERROR) ∧
    (i.isCommand = false → head = some opNOCOMMAND)

theorem ExecShape.closedFrame {i : Instr} {s t : State} {es : List Event} {fr : List Byte}
    (h : ExecShape i s t es fr) : ∃ op, ClosedFrame op fr ∧ FirstByte i (some op) := by
  rcases h.response with ⟨hc, r, -, rfl, hanswers | ⟨st, rfl⟩⟩ | ⟨hc, -, rfl⟩
  · exact ⟨_, closedFrame_of_answers hanswers, by simp [FirstByte, hc]⟩
  · exact ⟨_, closedFrame_errorFrame st, by simp [FirstByte, hc]⟩
  · exact ⟨_, closedFrame_noCommandFrame, by simp [FirstByte, hc]⟩

/-- `o` goes on, and the last event is the Tx of a closed frame whose first byte meets `P`. -/
def ClosedAnswer (P : Option Byte → Prop) (o : Host.Outcome State Fault Refusal) : Prop :=
  ∃ t fr, o = .next t ∧ t.trace.getLast? = some (.tx (fr ++ terminator)) ∧ fr.length ≤ 258 ∧ P fr.head?

theorem ClosedAnswer.mono {P Q : Option Byte → Prop} {o : Host.Outcome State Fault Refusal}
    (h : ClosedAnswer P o) (hPQ : ∀ head, P head → Q head) : ClosedAnswer Q o := by
  obtain ⟨t, fr, ht, hlast, hlen, hP⟩ := h
  exact ⟨t, fr, ht, hlast, hlen, hPQ _ hP⟩

theorem ClosedFrame.closedAnswer {P : Option Byte → Prop} {op : Byte} {fr : List Byte} {t : State}
    (h : ClosedFrame op fr) (hlast : t.trace.getLast? = some (.tx fr)) (hP : P (some op)) :
    ClosedAnswer P (.next t) := by
  obtain ⟨payload, rfl, hlen, hhead⟩ := h
  exact ⟨t, payload, rfl, hlast, hlen, hhead ▸ hP⟩

theorem closedAnswer_exec (i : Instr) (s : State) : ClosedAnswer (FirstByte i) (exec i s) := by
  obtain ⟨t, es, fr, ht, hs⟩ := exec_shape i s
  obtain ⟨op, hclosed, hop⟩ := hs.closedFrame
  exact ht ▸ hclosed.closedAnswer hs.getLast?_trace hop

theorem closedAnswer_transmit {op : Byte} {fr : List Byte} (h : ClosedFrame op fr) (s : State) :
    ClosedAnswer (· = some op) (.next (transmit fr s)) :=
  h.closedAnswer List.getLast?_concat rfl

/-- Settles O35: both clauses say `ClosedAnswer`, of every instruction and of the command loop in each of
the decoder's three answers. -/
theorem everyResponseIsAClosedFrame : Obligations.EveryResponseIsAClosedFrame := by
  refine ⟨closedAnswer_exec, fun body s => ?_⟩
  cases hd : decodeCommand body with
  | instr i =>
    rw [runCommand_instr (decode_of_decodeCommand hd (by simp))]
    exact (closedAnswer_exec i s).mono fun _ hfirst => hfirst.1 (isCommand_of_decodeCommand hd)
  | messageError =>
    rw [runCommand_messageError (decode_of_decodeCommand hd (by simp))]
    exact closedAnswer_transmit closedFrame_messageErrorFrame s
  | noCommand =>
    rw [runCommand_of_decodeCommand_noCommand hd]
    exact closedAnswer_transmit closedFrame_noCommandFrame s

/-! #### MESSAGEERROR (R127) -/

/-- 107 is the opcode of a row that is no command. -/
theorem opcode_ne_opMESSAGEERROR {i : Instr} (h : i.isCommand = true) :
    i.opcode ≠ opMESSAGEERROR := by
  cases i with
  | error | messageError | noCommand | info => cases h
  | _ => simp [Instr.opcode, opMESSAGEERROR]

/-- Settles O32: the command loop sends the frame of R127 and nothing more, and the decoder yields commands
only. -/
theorem malformedFrameIsAnsweredMessageError : Obligations.MalformedFrameIsAnsweredMessageError :=
  ⟨fun _ _ h => runCommand_messageError h,
    fun _ => runCommand_messageError (body := [100#8, 23#8]) rfl,
    fun _ _ h => opcode_ne_opMESSAGEERROR (isCommand_of_decodeCommand h)⟩

end Sys2Proof.Machine
end

/-! ### Exceptions, and the return from them -/

section
namespace Sys2Proof.Machine

/-- Settles O7: with no input there is nothing to accept. -/
theorem waitingForAByteChangesNothing : Obligations.WaitingForAByteChangesNothing :=
  fun _ hin => step_of_no_input hin

/-! #### A completed frame -/

/-- Settles O24: the frame completes in `RECV` with `len` emptied before its command runs, and no command
and no exception of the decoder leaves that state. -/
theorem completedFrameLeavesTheReaderEmpty : Obligations.CompletedFrameLeavesTheReaderEmpty := by
  intro s t b hd ha h
  obtain ⟨hp, -⟩ := (readerArm_complete_iff b s).mp ha
  obtain ⟨t', es, fr, ht, -, -, -, -, hreader, -⟩ := runCommand_answers (frameBody s) (emptied s)
  cases h.symm.trans ((feed_complete ha).trans ht)
  exact hreader hp rfl hd

/-! #### A discarded frame -/

/-- A dropped byte of a sequence without the pair does not let the next byte end the discard (R69). -/
theorem noTerminatorPair_of_cons {b : Byte} {bs : List Byte} (h : noTerminatorPair (b :: bs) = true) :
    ¬ (crFlag b = true ∧ bs.head? = some LF) ∧ noTerminatorPair bs = true := by
  cases bs with
  | nil => simp [noTerminatorPair]
  | cons c cs => simpa [noTerminatorPair, crFlag, imp_iff_not_or] using h

/-- A byte in `DISCARD` that does not end the discard sets `dcr` and does nothing else (R69). -/
theorem step_discard_goes_on {s : State} {b : Byte} {rest : List Input}
    (hin : s.inputs = .rx b :: rest) (hp : s.phase = .discard) (hn : ¬ (s.dcr = true ∧ b = LF)) :
    step s = .next { s with inputs := rest, dcr := crFlag b } :=
  (step_discard hin hp).trans (congrArg _ (discardByte_goes_on (withInputs rest s) b hn))

/-- The LF after a dropped CR ends the discard and does nothing else (R69, R145). -/
theorem step_discard_ends {s : State} {rest : List Input} (hin : s.inputs = .rx LF :: rest)
    (hp : s.phase = .discard) (hd : s.dcr = true) :
    step s = .next { s with inputs := rest, phase := .recv, dcr := false } :=
  (step_discard hin hp).trans (congrArg _ (discardByte_ends (withInputs rest s) LF ⟨hd, rfl⟩))

/-- Settles O19: byte by byte. No byte before the terminator ends the discard, its CR is remembered in
`dcr`, and its LF returns to `RECV`. -/
theorem discardedFrameIsDroppedInSilence : Obligations.DiscardedFrameIsDroppedInSilence := by
  intro s bs rest hp hpair hn hin
  induction bs generalizing s with
  | nil =>
    have hcr : step s = .next { s with inputs := .rx LF :: rest, dcr := true } :=
      step_discard_goes_on hin hp fun ⟨_, heq⟩ => absurd heq (by decide)
    rw [List.length_nil, runSteps_succ 1 hcr, runSteps_one]
    exact step_discard_ends rfl hp rfl
  | cons b bs ih =>
    obtain ⟨hnext, hpair'⟩ := noTerminatorPair_of_cons hpair
    have hb : step s = .next { s with inputs := rxBytes (bs ++ terminator) ++ rest, dcr := crFlag b } :=
      step_discard_goes_on hin hp fun ⟨hd, heq⟩ => hn ⟨hd, congrArg some heq⟩
    exact (runSteps_succ (bs.length + 2) hb).trans (ih _ hp hpair' hnext rfl)

/-! #### A bus fault -/

/-- Only the last event of a command can be a fault, and it is one exactly when the result is. -/
theorem Ends.last {es : List Event} {r : Result} (h : Ends es r) :
    (∀ e ∈ es.dropLast, e.faultStatus = none) ∧
    ((es.getLast?.bind Event.faultStatus = none ∧ ∀ st, r ≠ .busFault st) ∨
      ∃ st, es.getLast?.bind Event.faultStatus = some st ∧ r = .busFault st) := by
  rcases h with ⟨hnone, hr⟩ | ⟨pre, e, st, rfl, hnone, he, hr⟩
  · refine ⟨fun e he => hnone e (List.mem_of_mem_dropLast he), .inl ⟨?_, hr⟩⟩
    exact Option.bind_eq_none_iff.mpr fun e he => hnone e (List.mem_of_getLast? he)
  · rw [List.dropLast_concat, List.getLast?_concat]
    exact ⟨hnone, .inr ⟨st, he, hr⟩⟩

/-- Every response but that of a fault echoes the opcode (R120 to R124). -/
theorem head?_encodeResponse (op : Byte) {r : Result} (h : ∀ st, r ≠ .busFault st) :
    (encodeResponse op r).head? = some op := by
  cases r with
  | busFault st => exact absurd rfl (h st)
  | statusCode | readPayload | deviceList | ack => rfl

/-- Settles O55: the response of a command encodes the result its last event decides; a row that is no
command records no event before its response. -/
theorem busFaultEndsTheCommandWithError : Obligations.BusFaultEndsTheCommandWithError := by
  intro i s t h
  obtain ⟨es, fr, hs⟩ := exec_shape_of_next h
  refine ⟨es, fr, hs.newEvents, ?_⟩
  rcases hs.response with ⟨-, r, hends, rfl, -⟩ | ⟨hrow, rfl, -⟩
  · obtain ⟨hearlier, ⟨hlast, hr⟩ | ⟨st, hlast, rfl⟩⟩ := hends.last
    · rw [hlast]
      exact ⟨hearlier, fun _ => head?_encodeResponse i.opcode hr⟩
    · rw [hlast]
      refine ⟨hearlier, ?_⟩
      cases st <;> rfl
  · exact ⟨by simp, fun hc => absurd hc (by simp [hrow])⟩

/-! #### A non-zero status -/

/-- DEVICELIST goes on after a non-zero status without collecting the address (R101, R139). -/
theorem scan_of_nonzero {s : State} {st : BusStatus} (hst : st ≠ .success)
    (h : nextWriteAnswer s = .ok st) (a : Byte) (as found : List Byte) :
    scan (a :: as) found s =
      scan as found { popWriteAnswer s with
        trace := s.trace ++ [.busWrite s.cfg.freq a [] (.ok st)] } := by
  rw [scan_ok h, if_neg hst, ← h, ← popWriteAnswer_trace s]
  rfl

/-- Settles O56: each command's events, at this answer to its bus write. -/
theorem nonZeroStatusIsNotAnException : Obligations.NonZeroStatusIsNotAnException := by
  refine fun s st hst h => ⟨fun addr data => ?_, fun addr => ?_, scan_of_nonzero hst h,
    fun addr wdata rcount d hd => ?_⟩
  · have hg := grown_write addr data s
    rw [h] at hg
    exact ⟨_, rfl, hg.trace⟩
  · have hg := grown_checkDevice addr s
    rw [h] at hg
    exact ⟨_, rfl, hg.trace⟩
  · have hg := grown_writeRead_of_ok h addr wdata rcount
    rw [hd] at hg
    exact ⟨_, rfl, hg.trace⟩

end Sys2Proof.Machine
end

/-! ### The reset input, and what a reset interrupts -/

section
namespace Sys2Proof.Machine

/-- Settles O3: the events before the reset are replayed on the state that took the byte, which uses up
their answers; the reset then clears the block. -/
theorem resetDuringAStepKeepsOnlyWhatHappened : Obligations.ResetDuringAStepKeepsOnlyWhatHappened := by
  intro s t b k rest hin hfeed
  have hstep : step s = .next (abandonAfter k (withInputs rest s) t) :=
    (step_rxThenReset hin).trans (congrArg (abandonOutcome k (withInputs rest s)) hfeed)
  have hg := grown_replay ((newEvents s t).take k) (withInputs rest s)
  exact ⟨_, hstep, hg.trace, rfl, rfl, rfl, rfl, rfl, hg.inputs, hg.writeAnswers, hg.readAnswers⟩

/-- Settles O1: the reset input takes every element of the block from the reset state. -/
theorem nothingOfTheBlockPersistsAcrossReset : Obligations.NothingOfTheBlockPersistsAcrossReset :=
  fun _ _ hin => ⟨_, step_reset hin, rfl, rfl, rfl, rfl, rfl⟩

/-- Settles O2: the reset state value by value; what the outside world presents and the trace are carried
over. -/
theorem resetGivesTheResetValuesWithoutAnEvent : Obligations.ResetGivesTheResetValuesWithoutAnEvent :=
  fun _ _ hin => ⟨_, step_reset hin, rfl, rfl, rfl, fun _ => rfl, rfl, rfl, rfl, rfl, rfl, rfl, rfl, rfl,
    rfl, rfl, rfl⟩

end Sys2Proof.Machine
end

/-! ### Synchronising the reader -/

section
namespace Sys2Proof.Machine

/-- The reader invariant holds along every run that begins with it (R75). -/
theorem inv_of_runSteps {n : Nat} {s t : State} (hs : Inv s) (h : runSteps n s = .next t) : Inv t := by
  induction n generalizing s with
  | zero =>
    cases h
    exact hs
  | succ n ih =>
    obtain ⟨u, hu⟩ := safeStep s
    rw [runSteps_succ n hu] at h
    exact ih (readerInvariantKeptByEveryStep s u hs hu) h

/-- No CR completes a frame (R65). -/
theorem not_complete_cr (s : State) : ¬ (endsInCR s = true ∧ CR = LF) :=
  fun ⟨_, heq⟩ => absurd heq (by decide)

/-- Where the CR of a terminator finds room, it is stored and the LF runs the bytes received before it
(R66, R68). -/
theorem runSteps_terminator_of_room {s : State} {rest : List Input} (hwf : Memory.wf s.buf = true)
    (hp : s.phase = .recv) (hroom : s.len.toNat < s.cfg.cap.toNat)
    (hin : s.inputs = rxBytes terminator ++ rest) :
    ∃ buf, runSteps 2 s = runCommand (frameSoFar s) { s with buf := buf, len := 0#8, inputs := rest } := by
  have hcr := step_append hin hp (not_complete_cr s) hroom
  obtain ⟨hends, hbody⟩ := endsInCR_of_frameSoFar
    (frameSoFar_appendByte (s := withInputs (.rx LF :: rest) s) hwf hroom CR)
  have hlf := step_complete (s := appendByte CR (withInputs (.rx LF :: rest) s)) rfl hp hends
  rw [hbody] at hlf
  exact ⟨Memory.write s.buf s.len.toNat CR,
    (runSteps_succ 1 hcr).trans ((runSteps_one _).trans hlf)⟩

/-- Where the CR of a terminator finds no room, it overflows and the LF ends the discard (R67, R69). -/
theorem runSteps_terminator_of_full {s : State} {rest : List Input} (hp : s.phase = .recv)
    (hfull : s.cfg.cap.toNat ≤ s.len.toNat) (hin : s.inputs = rxBytes terminator ++ rest) :
    runSteps 2 s = .next { s with
      phase := .recv, len := 0#8, dcr := false, inputs := rest, trace := s.trace ++ [.overflow] } := by
  rw [runSteps_succ 1 (step_overflow hin hp (not_complete_cr s) hfull), runSteps_one]
  exact step_discard_ends rfl rfl rfl

/-- The empty frame is answered MESSAGEERROR (R81, R84, R127). -/
theorem runSteps_empty_frame {s : State} {rest : List Input} (hwf : Memory.wf s.buf = true)
    (hp : s.phase = .recv) (hl : s.len = 0#8) (hcap : 0 < s.cfg.cap.toNat)
    (hin : s.inputs = rxBytes terminator ++ rest) :
    ∃ buf, runSteps 2 s = .next (transmit messageErrorFrame { s with buf := buf, inputs := rest }) := by
  obtain ⟨buf, -, hrun⟩ := runSteps_frame (body := []) hwf hp hl hcap rfl hin
  exact ⟨buf, hrun.trans (runCommand_messageError rfl)⟩

/-- A terminator leaves the reader between frames, whatever it held: the frame in progress is run, or
overflows, or its discard ends (R66, R67, R69). -/
theorem terminator_leaves_between_frames {s : State} {rest : List Input} (hs : Inv s)
    (hin : s.inputs = rxBytes terminator ++ rest) :
    ∃ u, runSteps 2 s = .next u ∧ u.phase = .recv ∧ u.len = 0#8 ∧ u.inputs = rest := by
  obtain ⟨hwf, -, hlen, hdcr⟩ := hs
  cases hp : s.phase with
  | discard =>
    exact ⟨_, discardedFrameIsDroppedInSilence s [] rest hp rfl (by simp) hin, rfl, hlen hp, rfl⟩
  | recv =>
    rcases Nat.lt_or_ge s.len.toNat s.cfg.cap.toNat with hroom | hfull
    · obtain ⟨buf, hrun⟩ := runSteps_terminator_of_room hwf hp hroom hin
      obtain ⟨u, es, fr, hu, -, -, hinputs, -, hreader, -⟩ :=
        runCommand_answers (frameSoFar s) { s with buf := buf, len := 0#8, inputs := rest }
      obtain ⟨hpu, hlu, -⟩ := hreader hp rfl (hdcr hp)
      exact ⟨u, hrun.trans hu, hpu, hlu, hinputs⟩
    · exact ⟨_, runSteps_terminator_of_full hp hfull hin, rfl, rfl, rfl⟩

/-- Settles O20: the first terminator leaves the reader between frames, so the second is an empty frame,
for which capacity 0 alone has no room. -/
theorem twoTerminatorsSynchroniseTheReader : Obligations.TwoTerminatorsSynchroniseTheReader := by
  intro s rest hs hin
  obtain ⟨u, hu, hpu, hlu, hinu⟩ := terminator_leaves_between_frames hs hin
  have hinv : Inv u := inv_of_runSteps hs hu
  obtain ⟨t, ht, hpt, hlt, hint⟩ := terminator_leaves_between_frames hinv hinu
  refine ⟨u, t, hu, hpu, hlu, hinu, (runSteps_add hu 2).trans ht, hpt, hlt, hint,
    fun hcap => ?_, fun hzero => ?_⟩
  · obtain ⟨hwf, -⟩ := hinv
    obtain ⟨buf, hempty⟩ := runSteps_empty_frame hwf hpu hlu hcap hinu
    cases ht.symm.trans hempty
    rfl
  · have hfull : u.cfg.cap.toNat ≤ u.len.toNat := hzero ▸ Nat.zero_le _
    cases ht.symm.trans (runSteps_terminator_of_full hpu hfull hinu)
    rfl

end Sys2Proof.Machine
end

/-! ### When the settings change, and when they hold -/

section
namespace Sys2Proof.Machine

/-- Only SETINPUTBUFFERSIZE writes the capacity (R15, R117). -/
theorem written_cap {i : Instr} (hi : ∀ p, i ≠ .setInputBufferSize p) (s : State) :
    (written i s).cfg.cap = s.cfg.cap := by
  cases i with
  | setInputBufferSize p => exact absurd rfl (hi p)
  | _ => rfl

/-- A body too short for format P is no SETINPUTBUFFERSIZE, so it leaves the capacity (R58, R162). -/
theorem runCommand_cap_of_short {body : List Byte} {s t : State} (h : runCommand body s = .next t)
    (hshort : body.length < 2) : t.cfg.cap = s.cfg.cap := by
  rcases runCommand_cases body s with ⟨i, hdecode, hr⟩ | ⟨fr, -, hr⟩
  · obtain ⟨es, fr, hs⟩ := exec_shape_of_next (hr.symm.trans h)
    rw [hs.grown.cfg]
    refine written_cap (fun p hi => ?_) s
    obtain ⟨-, surplus, hbody, -⟩ := represents_of_decode hdecode
    rw [hbody, hi] at hshort
    simp [encode] at hshort
  · cases hr.symm.trans h
    rfl

/-- With a capacity of at most 2 no completed body is longer than one byte, and no arm but the completing
one runs a command (R75, R162). -/
theorem feed_cap_of_cap_le_two {b : Byte} {s t : State} (hs : Inv s) (hcap : s.cfg.cap.toNat ≤ 2)
    (h : feed b s = .next t) : t.cfg.cap = s.cfg.cap := by
  rcases readerArm_cases b s with ⟨ha, -⟩ | ⟨ha, -⟩ | ⟨ha, -⟩ | ⟨ha, -⟩
  · obtain ⟨-, hlen, -⟩ := hs
    have hbody : (frameBody s).length = s.len.toNat - 1 := Memory.firstBytes_length _ _
    have hshort : (frameBody s).length < 2 := by omega
    exact runCommand_cap_of_short (s := emptied s) ((feed_complete ha).symm.trans h) hshort
  · cases (feed_overflow ha).symm.trans h
    rfl
  · cases (feed_append ha).symm.trans h
    rfl
  · cases (feed_discard ha).symm.trans h
    rw [discardByte_cfg]

/-- Settles O21: the first clause is `feed_cap_of_cap_le_two`, and the reset value of the capacity is
128. -/
theorem capacityUpToTwoIsLeftOnlyByReset : Obligations.CapacityUpToTwoIsLeftOnlyByReset := by
  refine ⟨fun s t b rest hs hcap hin h => ?_, fun s t rest hin h => ?_⟩
  · exact feed_cap_of_cap_le_two (s := withInputs rest s) hs hcap ((step_rx hin).symm.trans h)
  · cases (step_reset hin).symm.trans h
    rfl

/-- Settles O49: four configuration commands, each on the state the one before leaves, and then the events
of RESETDEVICES under the configuration they have written. -/
theorem settingsHoldFromTheNextCommandOn : Obligations.SettingsHoldFromTheNextCommandOn :=
  fun s ms pin pulse settle => ⟨_, _, _, _, _,
    exec_of_isConfiguration (i := .setWriteReadDelay ms) rfl s,
    exec_of_isConfiguration (i := .setResetPin pin) rfl _,
    exec_of_isConfiguration (i := .setResetTime pulse) rfl _,
    exec_of_isConfiguration (i := .setResetSettleTime settle) rfl _,
    exec_resetDevices _, newEvents_of_trace rfl, rfl, rfl, rfl, rfl⟩

end Sys2Proof.Machine
end
